-- ==== Sys2Proof/Word.lean ====
section
/-! DEFINITION. The byte, which is every datum of this hardware (00_scope.md R6 `XLEN`, R7 "byte"), and the
register number once decoded (R7 Widths: "register indices once decoded (3 bits, values 0..7)"). -/

namespace Sys2Proof

/-- An unsigned byte, 0..255: a register, a memory cell, an opcode, an operand, an address (R7, R30).
Its `+`, `-` and `*` are the spec's `+8`, `-8` and `*8`: modulo 256. -/
abbrev Byte := BitVec 8

/-- A decoded register number, 0..7 (R12). The bound is part of the type, so no instruction of the model can name
a register the file does not have; an operand byte above 7 is stopped by the decoder (R48). -/
abbrev Reg := Fin 8

end Sys2Proof
end

