-- ==== Sys2Proof/Config.lean ====
section
/-! DEFINITION. The implementation parameters of 00_scope.md R6, the 13 mnemonics and the type of the opcode
table `OPC`. The hardware has no other parameter (R6), and the spec leaves no value open, so nothing here is a
free value. The default instance of `OPC` stands in Decode.lean. -/

namespace Sys2Proof

namespace Config

/-- R6 `MEM_SIZE`: the number of memory cells. -/
def memSize : Nat := 256

/-- R6 `SP_INDEX`, R13: the register that is the stack pointer. -/
def spIndex : Reg := 7

/-- R6 `SP_RESET`: the reset value of `x[7]`. -/
def spReset : Byte := 255#8

/-- R6 `PC_RESET`: the reset value of `pc`. -/
def pcReset : Byte := 0#8

/-- R6 `LOAD_BASE`: the address of the first image byte. -/
def loadBase : Byte := 0#8

end Config

/-- The 13 mnemonics, in the order of the spec's table (R2, R51). -/
inductive Mnemonic where
  | ldi | prn | mul | add | cmp | push | pop | call | ret | jmp | jeq | jne | hlt
deriving DecidableEq, Repr

/-- Every mnemonic once, in table order (R51). -/
def Mnemonic.all : List Mnemonic :=
  [.ldi, .prn, .mul, .add, .cmp, .push, .pop, .call, .ret, .jmp, .jeq, .jne, .hlt]

/-- The spec's parameter `OPC`: the opcode byte of each mnemonic (R6, R51; 92_eei_decisions.md D1). The source
fixes no value of it, only that the 13 bytes are pairwise different; the decoder, the encoder and the step take
the table as an argument. -/
abbrev OpcodeTable := Mnemonic → Byte

end Sys2Proof
end

