-- ==== Sys2Proof/Syntax.lean ====
section
/-! DEFINITION. The 13 instructions as syntax, one constructor per row of spec/opcode_table.json
(30_encoding.md R51). -/

namespace Sys2Proof

/-- An instruction with its decoded operands, in table order (R2, R51). A register operand is a `Reg`; the one
immediate is a whole byte (R49). -/
inductive Instr where
  /-- LDI reg, immediate (R70). -/
  | ldi (r : Reg) (imm : Byte)
  /-- PRN reg (R71). -/
  | prn (r : Reg)
  /-- MUL regA, regB (R73). -/
  | mul (rA rB : Reg)
  /-- ADD regA, regB (R74). -/
  | add (rA rB : Reg)
  /-- CMP regA, regB (R75). -/
  | cmp (rA rB : Reg)
  /-- PUSH reg (R78). -/
  | push (r : Reg)
  /-- POP reg (R79). -/
  | pop (r : Reg)
  /-- CALL reg (R81). -/
  | call (r : Reg)
  /-- RET (R82). -/
  | ret
  /-- JMP reg (R83). -/
  | jmp (r : Reg)
  /-- JEQ reg (R84). -/
  | jeq (r : Reg)
  /-- JNE reg (R85). -/
  | jne (r : Reg)
  /-- HLT (R86). -/
  | hlt
deriving DecidableEq, Repr

/-- The row of the opcode table an instruction belongs to. -/
def Instr.mnemonic : Instr → Mnemonic
  | .ldi _ _ => .ldi
  | .prn _ => .prn
  | .mul _ _ => .mul
  | .add _ _ => .add
  | .cmp _ _ => .cmp
  | .push _ => .push
  | .pop _ => .pop
  | .call _ => .call
  | .ret => .ret
  | .jmp _ => .jmp
  | .jeq _ => .jeq
  | .jne _ => .jne
  | .hlt => .hlt

end Sys2Proof
end

