-- ==== Sys2Proof/WellFormed.lean ====
section
/-! DEFINITION. What well formed means: for the operand bytes of an instruction (30_encoding.md R48, R56), for an
opcode table (R51) and for a program image (50_interfaces.md R92, R98). A term of `Instr` is well formed by its
type, since a `Reg` is below 8; the check on bytes below is the spec's own list of which bytes are checked, and
Laws/Decode.lean proves that the decoder accepts exactly the bytes it accepts. -/

namespace Sys2Proof

/-- R56: the operand bytes of a row that are register operands, in the order they are checked. -/
def registerOperandBytes (m : Mnemonic) (b1 b2 : Byte) : List Byte :=
  match m with
  | .ldi => [b1]
  | .prn => [b1]
  | .mul => [b1, b2]
  | .add => [b1, b2]
  | .cmp => [b1, b2]
  | .push => [b1]
  | .pop => [b1]
  | .call => [b1]
  | .ret => []
  | .jmp => [b1]
  | .jeq => [b1]
  | .jne => [b1]
  | .hlt => []

/-- R48: a register operand byte names a register when it is 0..7; the whole byte is the index, with no mask. -/
def isRegisterIndex (b : Byte) : Bool := decide (b.toNat ≤ 7)

/-- R48, R53: the operand bytes of an instruction are legal when every register operand byte is; an immediate
always is (R49). -/
def operandsWellFormed (m : Mnemonic) (b1 b2 : Byte) : Bool :=
  (registerOperandBytes m b1 b2).all isRegisterIndex

/-- R51, D1: an opcode table has 13 pairwise different bytes. -/
def OpcodeTable.wellFormed (t : OpcodeTable) : Bool :=
  decide ((Mnemonic.all.map t).Pairwise (· ≠ ·))

/-- R92, R98: a program image fits when it has at most 256 bytes. -/
def imageWellFormed (image : List Byte) : Bool := decide (image.length ≤ Config.memSize)

end Sys2Proof
end

