-- ==== Sys2Proof/Decode.lean ====
section
/-! DEFINITION. The decoder, total on any bytes and rejecting by name, the default opcode table, and the encoder
(30_encoding.md R45 to R56; 40_dispatcher.md R60 to R62). -/

namespace Sys2Proof

/-- The default instance of the parameter `OPC` (R51, 92_eei_decisions.md D1). PRESUMED: the values are taken from
outside the source; notes/assumptions/1.md. -/
def OPC : OpcodeTable
  | .ldi => 0x82#8
  | .prn => 0x47#8
  | .mul => 0xA2#8
  | .add => 0xA0#8
  | .cmp => 0xA7#8
  | .push => 0x45#8
  | .pop => 0x46#8
  | .call => 0x50#8
  | .ret => 0x11#8
  | .jmp => 0x54#8
  | .jeq => 0x55#8
  | .jne => 0x56#8
  | .hlt => 0x01#8

/-- The length in bytes of each row: 1 for format F0, 2 for F1, 3 for F2 (R46, R51). It belongs to the row and is
never computed from the bits of the opcode byte (R50). -/
def Mnemonic.length : Mnemonic → Nat
  | .ldi => 3
  | .prn => 2
  | .mul => 3
  | .add => 3
  | .cmp => 3
  | .push => 2
  | .pop => 2
  | .call => 2
  | .ret => 1
  | .jmp => 2
  | .jeq => 2
  | .jne => 2
  | .hlt => 1

/-- Why bytes are no legal instruction, as the decoder finds it. -/
inductive Illegal where
  /-- R52, R101: the opcode byte is none of the 13. -/
  | unsupportedOpcode (opcode : Byte)
  /-- R48, R102: a register operand byte is above 7; `operand` is the first such byte. -/
  | invalidRegisterIndex (opcode operand : Byte)
deriving DecidableEq, Repr

/-- Why a list of bytes does not begin with a legal instruction. -/
inductive DecodeError where
  /-- The bytes are illegal. -/
  | illegal (why : Illegal)
  /-- The list ends inside an instruction. Never in a machine, whose memory wraps (R37); notes/assumptions/12.md. -/
  | truncated
deriving DecidableEq, Repr

/-- The dispatch table lookup, by the whole opcode byte (R51 "mask 0xFF", R62). -/
def lookup (t : OpcodeTable) (opcode : Byte) : Option Mnemonic :=
  Mnemonic.all.find? (fun m => t m == opcode)

/-- The register check on one operand byte (R48): go on with the register it names, or stop with the byte. -/
def withReg {α : Type} (b : Byte) (k : Reg → Except Byte α) : Except Byte α :=
  if h : b.toNat < 8 then k ⟨b.toNat, h⟩ else .error b

/-- The operands of a matched row from its operand bytes: `b1` is checked before `b2` (R48, R56, R103), and the
immediate of LDI is `b2` as it stands (R49). An error is the first offending byte. -/
def decodeOperands (m : Mnemonic) (b1 b2 : Byte) : Except Byte Instr :=
  match m with
  | .ldi => withReg b1 fun r => .ok (.ldi r b2)
  | .prn => withReg b1 fun r => .ok (.prn r)
  | .mul => withReg b1 fun rA => withReg b2 fun rB => .ok (.mul rA rB)
  | .add => withReg b1 fun rA => withReg b2 fun rB => .ok (.add rA rB)
  | .cmp => withReg b1 fun rA => withReg b2 fun rB => .ok (.cmp rA rB)
  | .push => withReg b1 fun r => .ok (.push r)
  | .pop => withReg b1 fun r => .ok (.pop r)
  | .call => withReg b1 fun r => .ok (.call r)
  | .ret => .ok .ret
  | .jmp => withReg b1 fun r => .ok (.jmp r)
  | .jeq => withReg b1 fun r => .ok (.jeq r)
  | .jne => withReg b1 fun r => .ok (.jne r)
  | .hlt => .ok .hlt

/-- Decoding an opcode byte and the two bytes after it (R60 to R62): lookup, then the register check. A row takes
only the operand bytes its length calls for, and an unmatched opcode takes none (R50). -/
def decodeBytes (t : OpcodeTable) (opcode b1 b2 : Byte) : Except Illegal Instr :=
  match lookup t opcode with
  | none => .error (.unsupportedOpcode opcode)
  | some m =>
    match decodeOperands m b1 b2 with
    | .ok i => .ok i
    | .error b => .error (.invalidRegisterIndex opcode b)

/-- Decoding the front of a list of bytes: the instruction and the bytes after it (R45, R47, R50). -/
def decode (t : OpcodeTable) : List Byte → Except DecodeError (Instr × List Byte)
  | [] => .error .truncated
  | opcode :: rest =>
    match lookup t opcode with
    | none => .error (.illegal (.unsupportedOpcode opcode))
    | some m =>
      if rest.length + 1 < m.length then .error .truncated
      else
        match decodeBytes t opcode (rest.getD 0 0#8) (rest.getD 1 0#8) with
        | .ok i => .ok (i, rest.drop (m.length - 1))
        | .error e => .error (.illegal e)

/-- The operand byte that names a register (R48). -/
def regByte (r : Reg) : Byte := BitVec.ofNat 8 r.val

/-- The bytes of an instruction, opcode first and operands in assembler order (R33, R46, R47). -/
def encode (t : OpcodeTable) : Instr → List Byte
  | .ldi r imm => [t .ldi, regByte r, imm]
  | .prn r => [t .prn, regByte r]
  | .mul rA rB => [t .mul, regByte rA, regByte rB]
  | .add rA rB => [t .add, regByte rA, regByte rB]
  | .cmp rA rB => [t .cmp, regByte rA, regByte rB]
  | .push r => [t .push, regByte r]
  | .pop r => [t .pop, regByte r]
  | .call r => [t .call, regByte r]
  | .ret => [t .ret]
  | .jmp r => [t .jmp, regByte r]
  | .jeq r => [t .jeq, regByte r]
  | .jne r => [t .jne, regByte r]
  | .hlt => [t .hlt]

/-- Byte number `k` of a word of the opcode table, of which only the low `nbits` bits count. -/
def wordByte (nbits w k : Nat) : Byte := BitVec.ofNat 8 ((w % 2 ^ nbits) / 2 ^ (8 * k))

/-- The bytes of an opcode-table word as memory holds them, first byte first (R33), up to the longest instruction. -/
def wordBytes (nbits w : Nat) : List Byte :=
  [wordByte nbits w 0, wordByte nbits w 1, wordByte nbits w 2]

/-- The instruction the decoder reads from an opcode-table word under the default table. -/
def decodeTableWord (nbits w : Nat) : Option Instr :=
  match decode OPC (wordBytes nbits w) with
  | .ok (i, _) => some i
  | .error _ => none

end Sys2Proof
end

