-- ==== Sys2Proof/Machine/State.lean ====
section
/-! DEFINITION. The state of the machine (10_state.md R10: exactly seven items), its memory as plain data, what a
step can stop with, and the state after Reset (R22). -/

namespace Sys2Proof.Machine

/-- The memory array `MEM` (R11): (address, byte) pairs in canonical form (`Memory.wf`). An address not listed reads
as `Memory.unlisted`. -/
abbrev Memory := List Host.Cell

/-- What an unlisted address reads as: 0, the value Reset gives every cell (R11 "zero-initialized", R22). -/
def Memory.unlisted : Byte := 0#8

/-- The canonical form: addresses strictly rising, each one of the 256 that exist (R30), and no entry equal to what an
unlisted address reads as. Two canonical memories with the same contents are the same list. -/
def Memory.wf (m : Memory) : Bool :=
  decide (m.Pairwise (fun c d => c.1 < d.1)) &&
    m.all (fun c => decide (c.1 < Config.memSize) && decide (c.2 ≠ Memory.unlisted))

/-- A fault record, as the latch `FAULT` holds it (R19). -/
inductive FaultRecord where
  /-- Kind 0 (R100, R101): the fetched byte is no opcode; `at` is the value of `pc` at the fetch. -/
  | unsupportedOpcode (opcode pcAt : Byte)
  /-- Kind 1 (R100, R102): `operand` is the first register operand byte above 7. -/
  | invalidRegisterIndex (opcode operand pcAt : Byte)
deriving DecidableEq, Repr

/-- The architectural state: exactly the seven items of R10, and nothing else (R21). -/
structure State where
  /-- `MEM[0..255]` (R11). -/
  mem : Memory
  /-- `x[0..7]` (R12); `x[7]` is the stack pointer (R13). -/
  regs : Vector Byte 8
  /-- `FL` (R16): bit 0 Equal, bit 1 Greater, bit 2 Less, bits 7:3 unnamed storage. -/
  fl : Byte
  /-- `pc` (R15). -/
  pc : Byte
  /-- `RUN` (R18). -/
  run : Bool
  /-- `FAULT` (R19): `none`, or the record of the fault that stopped the core. -/
  fault : Option FaultRecord
  /-- `OUT` (R20): the bytes emitted since Reset, oldest first. -/
  out : List Byte
deriving DecidableEq, Repr

/-- Why a step is not taken. Both are raised by `step` alone, never by an instruction, and stand for R68 (a stopped
core takes no step, and its state is final; 93_implementation_defined.md S10 `stuck`). Taking one of the two faults
of R100 is a NEXT state, with the latch written; these are what a step of the core answers after that. -/
inductive Fault where
  /-- `RUN` is 0 and `FAULT` is `none`: HLT has run (R64 a, R86). Safe: the hardware takes no step either. -/
  | coreHalted
  /-- `FAULT` holds `record` (R64 b, R104, R105). Safe: the hardware takes no step either. -/
  | coreFaulted (record : FaultRecord)
deriving DecidableEq, Repr

/-- What the model gives no meaning. No instruction ends in one. -/
inductive Refusal where
  /-- An instruction that has no meaning yet, by its mnemonic. Raised by an arm of `exec`; none does. Safe. -/
  | notModelled (mnemonic : String)
  /-- The host's Load of more than 256 bytes fails (R98 `LoadOverflow`, R107). Raised by `load`, never by a step.
  Safe: the spec leaves memory after it open (S8) and forbids a run from there; the model gives it no state (log entry 8). -/
  | loadOverflow (length : Nat)
  /-- A Load that does not stand directly after Reset (R92, 92_eei_decisions.md D10, S9 `refuse`). Raised by `load`,
  never by a step. Safe. -/
  | loadNotAfterReset
  /-- A Run with no Reset before it (S9 "Run without Reset", `refuse`), or after a failed Load and before the next Reset (R98,
  S8). Raised by `runFrom`, never by a step. Safe. -/
  | runNotAfterReset
  /-- A Run of a core that is running (R94: "The host has no move between Run and the stop except Reset"). Raised by `runFrom`,
  never by a step. Safe. -/
  | runWhileRunning
deriving DecidableEq, Repr

/-- The state after Reset (R22, R120): every field has the value the spec states. -/
def State.reset : State where
  mem := []
  regs := #v[0#8, 0#8, 0#8, 0#8, 0#8, 0#8, 0#8, Config.spReset]
  fl := 0#8
  pc := Config.pcReset
  run := true
  fault := none
  out := []

end Sys2Proof.Machine
end

