-- ==== Sys2Proof/Machine/Ops.lean ====
section
/-! DEFINITION. The named operations over memory, registers, `pc`, `OUT`, `RUN` and the fault latch. Every
instruction is written over these; each says which rule it follows. -/

namespace Sys2Proof.Machine

/-! ### Memory (20_memory.md R30, R31) -/

/-- The byte at a cell number: the first entry for it, else the unlisted value. -/
def Memory.readAt : Memory → Nat → Byte
  | [], _ => Memory.unlisted
  | c :: rest, k => if c.1 = k then c.2 else Memory.readAt rest k

/-- A memory without any entry for a cell number. -/
def Memory.eraseAt (m : Memory) (k : Nat) : Memory := m.filter (fun c => c.1 != k)

/-- A memory with one more entry, put before the first larger cell number. -/
def Memory.insertAt : Memory → Nat → Byte → Memory
  | [], k, v => [(k, v)]
  | c :: rest, k, v => if k < c.1 then (k, v) :: c :: rest else c :: Memory.insertAt rest k v

/-- `MemRead(a, 1)` (R31). An address is a byte, so every address has a cell (R30) and the read is total. -/
def Memory.read (m : Memory) (a : Byte) : Byte := m.readAt a.toNat

/-- `MemWrite(a, 1, v)` (R31), keeping the canonical form: writing the unlisted value removes the entry. -/
def Memory.write (m : Memory) (a v : Byte) : Memory :=
  if v = Memory.unlisted then m.eraseAt a.toNat else (m.eraseAt a.toNat).insertAt a.toNat v

/-- `MemRead(a, 1)` on the machine's memory (R31): it changes nothing. -/
def State.readMem (s : State) (a : Byte) : Byte := s.mem.read a

/-- `MemWrite(a, 1, v)` on the machine's memory (R31): it changes that cell and nothing else. -/
def State.writeMem (s : State) (a v : Byte) : State := { s with mem := s.mem.write a v }

/-- The bytes of a list written at ascending addresses from `a`, modulo 256 (R33, R37). -/
def State.writeBytes (s : State) (a : Byte) : List Byte → State
  | [] => s
  | b :: rest => (s.writeMem a b).writeBytes (a + 1) rest

/-! ### Registers (10_state.md R12, R13) -/

/-- Read of `x[r]` (R7, R12). No register is hard-wired. -/
def State.reg (s : State) (r : Reg) : Byte := s.regs[r.val]

/-- `x[r] <- v` (R7, R12). -/
def State.setReg (s : State) (r : Reg) (v : Byte) : State := { s with regs := s.regs.set r.val v r.isLt }

/-- Read of `SP`, which is `x[7]` (R13). -/
def State.sp (s : State) : Byte := s.reg Config.spIndex

/-- `SP <- v`, which is `x[7] <- v` (R13). -/
def State.setSp (s : State) (v : Byte) : State := s.setReg Config.spIndex v

/-- `SP <- SP -8 1` (R77, R78), modulo 256 (92_eei_decisions.md D4). -/
def State.decSp (s : State) : State := s.setSp (s.sp - 1)

/-- `SP <- SP +8 1` (R77, R79), modulo 256 (D4). -/
def State.incSp (s : State) : State := s.setSp (s.sp + 1)

/-! ### Program counter, output, running flag -/

/-- `pc <- v` (R15). -/
def State.setPc (s : State) (v : Byte) : State := { s with pc := v }

/-- "advances PC by N" (R63, R66), modulo 256 (D2). -/
def State.advance (s : State) (len : Nat) : State := s.setPc (s.pc + BitVec.ofNat 8 len)

/-- `Emit(v)`: append the byte to `OUT` (R20, R71). It cannot block or fail (R95). -/
def State.emit (s : State) (v : Byte) : State := { s with out := s.out ++ [v] }

/-- `RUN <- 0` (R18, R86). -/
def State.stopRunning (s : State) : State := { s with run := false }

/-! ### Taking a fault (60_exceptions.md R104) -/

/-- `raise F(info)` (R7, R104): the latch takes the record and nothing else changes; `pc` stays on the offending
opcode byte and `RUN` stays 1. There is no vector, no mode change and no saved register. There is no return from a
fault beside it: the hardware has none (R105), and only Reset leaves the faulted condition (R91). -/
def State.takeFault (s : State) (record : FaultRecord) : State := { s with fault := some record }

/-- The record of what the decoder found, with the value of `pc` at the fetch (R101, R102). -/
def illegalRecord (why : Illegal) (pcAt : Byte) : FaultRecord :=
  match why with
  | .unsupportedOpcode opcode => .unsupportedOpcode opcode pcAt
  | .invalidRegisterIndex opcode operand => .invalidRegisterIndex opcode operand pcAt

end Sys2Proof.Machine
end

