-- ==== Sys2Proof/Machine/Alu.lean ====
section
/-! DEFINITION. The ALU (42_alu.md R72, R76): a combinational block of three operations. It holds no state and has no
carry, overflow, zero, sign or order output, and its operation select is driven by the decoder alone, so there is no
unsupported operation (R106, 92_eei_decisions.md D13). -/

namespace Sys2Proof.Machine

/-- ADD: `a +8 b`, that is (a + b) mod 256 (R72). -/
def aluAdd (a b : Byte) : Byte := a + b

/-- MUL: `a *8 b`, the low 8 bits of the 16-bit product (R72). -/
def aluMul (a b : Byte) : Byte := a * b

/-- CMP: the condition output `eq`, 1 when the two bytes are the same bit pattern (R72, R75). -/
def aluEq (a b : Byte) : Bool := a == b

end Sys2Proof.Machine
end

