-- ==== Sys2Proof/Machine/Flags.lean ====
section
/-! DEFINITION. The flags byte `FL` (10_state.md R16, R17): its bits, and the one write any instruction makes to it. -/

namespace Sys2Proof.Machine

/-- `FL.E`, bit 0: Equal (R16). -/
def State.flagE (s : State) : Bool := s.fl.getLsbD 0

/-- `FL.G`, bit 1: Greater, unused by every instruction (R16). -/
def State.flagG (s : State) : Bool := s.fl.getLsbD 1

/-- `FL.L`, bit 2: Less, unused by every instruction (R16). -/
def State.flagL (s : State) : Bool := s.fl.getLsbD 2

/-- The flags byte after `FL.E <- 1`: every other bit keeps its value (R75). -/
def setEqualBit (fl : Byte) : Byte := fl ||| 1#8

/-- The flags byte after a CMP whose ALU condition output is `eq`: Equal is set on equality and `FL` is not written
at all otherwise, so Equal is never cleared (R17, R75). -/
def cmpFlags (eq : Bool) (fl : Byte) : Byte := if eq then setEqualBit fl else fl

/-- `FL <- v`. -/
def State.setFl (s : State) (v : Byte) : State := { s with fl := v }

end Sys2Proof.Machine
end

