-- ==== Sys2Proof/Machine/Operands.lean ====
section
/-! DEFINITION. The operand forms the instruction set has: a register, a register pair read together, the immediate of
LDI, the byte on top of the stack, and the return address CALL pushes (30_encoding.md R48, R49; 43_stack.md R77;
44_control_transfer.md R81). There is no other addressing mode (R77, R80). -/

namespace Sys2Proof.Machine

/-- A register operand: the whole byte of `x[r]` (R48). -/
def regOperand (s : State) (r : Reg) : Byte := s.reg r

/-- Two register operands, both read before anything is written (R73, R74, R75). -/
def regPairOperands (s : State) (rA rB : Reg) : Byte × Byte := (s.reg rA, s.reg rB)

/-- The immediate operand: the byte as it stands, neither extended, scaled nor shifted (R49). -/
def immOperand (imm : Byte) : Byte := imm

/-- The byte a pop reads: `MemRead(SP, 1)` at the SP before the increment (R77). -/
def stackOperand (s : State) : Byte := s.readMem s.sp

/-- The return address of a CALL at `pc`: `pc +8 2` (R81). -/
def returnAddress (s : State) : Byte := s.pc + 2

end Sys2Proof.Machine
end

