-- ==== Sys2Proof/Machine/Arithmetic.lean ====
section
/-! DEFINITION. The arithmetic and compare instructions MUL, ADD and CMP (42_alu.md). -/

namespace Sys2Proof.Machine

/-- The shape MUL and ADD share: both operands read, the ALU result written to the first, no flag, `pc <- pc +8 3`
(R73, R74). -/
def execAluInto (op : Byte → Byte → Byte) (rA rB : Reg) (s : State) : State :=
  let ab := regPairOperands s rA rB
  (s.setReg rA (op ab.1 ab.2)).advance 3

/-- MUL regA, regB (R73): `x[rA] <- x[rA] *8 x[rB]`. -/
def execMul (rA rB : Reg) (s : State) : Host.Outcome State Fault Refusal :=
  .next (execAluInto aluMul rA rB s)

/-- ADD regA, regB (R74): `x[rA] <- x[rA] +8 x[rB]`. -/
def execAdd (rA rB : Reg) (s : State) : Host.Outcome State Fault Refusal :=
  .next (execAluInto aluAdd rA rB s)

/-- CMP regA, regB (R75): `FL.E <- 1` if the two are equal, else `FL` is not written; `pc <- pc +8 3`. -/
def execCmp (rA rB : Reg) (s : State) : Host.Outcome State Fault Refusal :=
  let ab := regPairOperands s rA rB
  .next ((s.setFl (cmpFlags (aluEq ab.1 ab.2) s.fl)).advance 3)

end Sys2Proof.Machine
end

