-- ==== Sys2Proof/Machine/ControlTransfer.lean ====
section
/-! DEFINITION. The control transfer instructions CALL, RET, JMP, JEQ and JNE (44_control_transfer.md): absolute, through a
register or the stack, with no check of the target (R80). -/

namespace Sys2Proof.Machine

/-- CALL reg (R81): `SP <- SP -8 1`, `MemWrite(SP, 1, pc +8 2)`, then `pc <- x[r]` with `x[r]` read after the push. -/
def execCall (r : Reg) (s : State) : Host.Outcome State Fault Refusal :=
  let s1 := s.decSp
  let s2 := s1.writeMem s1.sp (returnAddress s1)
  .next (s2.setPc (regOperand s2 r))

/-- RET (R82): `t <- MemRead(SP, 1)`, `SP <- SP +8 1`, `pc <- t`. The popped cell keeps its value. -/
def execRet (s : State) : Host.Outcome State Fault Refusal :=
  let t := stackOperand s
  .next (s.incSp.setPc t)

/-- The shape JEQ and JNE share: to `x[r]` when taken, else past the instruction's two bytes (R66, R84, R85). -/
def branchIf (taken : Bool) (r : Reg) (s : State) : State :=
  if taken then s.setPc (regOperand s r) else s.advance 2

/-- JMP reg (R83): `pc <- x[r]`. -/
def execJmp (r : Reg) (s : State) : Host.Outcome State Fault Refusal :=
  .next (s.setPc (regOperand s r))

/-- JEQ reg (R84): taken when `FL.E` is 1. -/
def execJeq (r : Reg) (s : State) : Host.Outcome State Fault Refusal :=
  .next (branchIf s.flagE r s)

/-- JNE reg (R85): taken when `FL.E` is 0. -/
def execJne (r : Reg) (s : State) : Host.Outcome State Fault Refusal :=
  .next (branchIf (!s.flagE) r s)

end Sys2Proof.Machine
end

