-- ==== Sys2Proof/Machine/DataMovement.lean ====
section
/-! DEFINITION. The data movement instructions LDI and PRN (41_data_movement.md). -/

namespace Sys2Proof.Machine

/-- LDI reg, immediate (R70): `x[r] <- imm`, `pc <- pc +8 3`. -/
def execLdi (r : Reg) (imm : Byte) (s : State) : Host.Outcome State Fault Refusal :=
  .next ((s.setReg r (immOperand imm)).advance 3)

/-- PRN reg (R71): `Emit(x[r])`, `pc <- pc +8 2`. -/
def execPrn (r : Reg) (s : State) : Host.Outcome State Fault Refusal :=
  .next ((s.emit (regOperand s r)).advance 2)

end Sys2Proof.Machine
end

