-- ==== Sys2Proof/Machine/Stack.lean ====
section
/-! DEFINITION. The stack instructions PUSH and POP (43_stack.md). The statements take effect in the order written, each
seeing the writes before it (92_eei_decisions.md D7), which shows when `r` is 7. -/

namespace Sys2Proof.Machine

/-- PUSH reg (R78): `SP <- SP -8 1`, then `MemWrite(SP, 1, x[r])` at the new SP with `x[r]` read after the decrement,
then `pc <- pc +8 2`. -/
def execPush (r : Reg) (s : State) : Host.Outcome State Fault Refusal :=
  let s1 := s.decSp
  .next ((s1.writeMem s1.sp (regOperand s1 r)).advance 2)

/-- POP reg (R79): `x[r] <- MemRead(SP, 1)` at the old SP, then `SP <- SP +8 1` computed after the write of `x[r]`,
then `pc <- pc +8 2`. The popped cell keeps its value (90_conflicts.md C1). -/
def execPop (r : Reg) (s : State) : Host.Outcome State Fault Refusal :=
  .next ((s.setReg r (stackOperand s)).incSp.advance 2)

end Sys2Proof.Machine
end

