-- ==== Sys2Proof/Machine/System.lean ====
section
/-! DEFINITION. The system instruction HLT (45_system.md), the only one there is (R87). -/

namespace Sys2Proof.Machine

/-- HLT (R86): `RUN <- 0`, `pc <- pc +8 1`. -/
def execHlt (s : State) : Host.Outcome State Fault Refusal :=
  .next (s.stopRunning.advance 1)

end Sys2Proof.Machine
end

