-- ==== Sys2Proof/Machine/Sequencer.lean ====
section
/-! DEFINITION. The fetch-decode-execute step under any opcode table (40_dispatcher.md R60 to R68). -/

namespace Sys2Proof.Machine

/-- Fetch and decode at `pc` (R60, R61): the opcode byte and the two bytes after it, at addresses modulo 256 (R37,
R47). All of them are read before the instruction changes any state (R63, 92_eei_decisions.md D5). -/
def decodeAtPc (t : OpcodeTable) (s : State) : Except Illegal Instr :=
  decodeBytes t (s.readMem s.pc) (s.readMem (s.pc + 1)) (s.readMem (s.pc + 2))

/-- Why the core takes no step, if it takes none (R60 `require`, R68): `FAULT` is set, or `RUN` is 0. Of a state with
both, which no run reaches (R96), the fault is reported; notes/assumptions/10.md. -/
def stopReason (s : State) : Option Fault :=
  match s.fault with
  | some record => some (.coreFaulted record)
  | none => if s.run then none else some .coreHalted

/-- One step (R60): nothing if the core is stopped; else fetch and decode, and take the fault the decoder finds or
execute the instruction. -/
def stepWith (t : OpcodeTable) (s : State) : Host.Outcome State Fault Refusal :=
  match stopReason s with
  | some why => .fault why
  | none =>
    match decodeAtPc t s with
    | .error e => .next (s.takeFault (illegalRecord e s.pc))
    | .ok i => exec i s

end Sys2Proof.Machine
end

