-- ==== Sys2Proof/Machine/Step.lean ====
section
/-! DEFINITION. The step under the default opcode table, and the state in which an instruction of the opcode table stands
where the step fetches. -/

namespace Sys2Proof.Machine

/-- One step of the machine under the default table `OPC` (R60; 92_eei_decisions.md D1). -/
def step (s : State) : Host.Outcome State Fault Refusal := stepWith OPC s

/-- `s` with the bytes of an opcode-table word at `pc`, `pc +8 1` and `pc +8 2` (R47), and nothing else changed;
notes/assumptions/9.md says how a program comes to run from Reset. -/
def State.withFetchWord (s : State) (nbits w : Nat) : State := s.writeBytes s.pc (wordBytes nbits w)

end Sys2Proof.Machine
end

