-- ==== Sys2Proof/Machine/Transactions.lean ====
section
/-! DEFINITION. The host's side (50_interfaces.md): the machine in the host's hands, the transactions Reset, Load and Run,
and what the core gives back (the output bytes, the status and the fault report). None of them is a step of the core. -/

namespace Sys2Proof.Machine

/-! ### The life of a machine (R90)

Where in the lifecycle a machine stands is no item of the core's state (R10, R21): it is what the host has done with it,
and decides which transaction is defined (R92, 92_eei_decisions.md D10, 93_implementation_defined.md S9). -/

/-- The machine in the host's hands: Reset, then at most one Load, then Run (R90), with the core's state where the spec
gives it one. -/
inductive Session where
  /-- Only Reset is defined: nothing has been Reset yet, or a transaction failed or was refused since. No state: memory is
  unspecified after a failed Load (R98, S8), and the rest is the model's choice (log entry 8). -/
  | needsReset
  /-- Directly after Reset: the core is in `State.reset` (R22, R91). -/
  | afterReset
  /-- A Load has been performed since Reset and no Run; the core is in `s` (R92). -/
  | loaded (s : State)
  /-- Run has been performed since Reset; the core, running or stopped, is in `s` (R93). -/
  | started (s : State)
deriving DecidableEq, Repr

/-! ### Transactions (R91 to R93, R98) -/

/-- Reset, in any state (R91): every piece of state takes its reset value, memory included. -/
def resetCore (_ : State) : State := State.reset

/-- Load (R92, R98): the image at address 0, in order, no gaps, and nothing else changed. More than 256 bytes fail as
`LoadOverflow`. Load is defined once, directly after Reset and before Run, whatever the image (D10, S9).

DESIGN CHOICE, safe (log entry 8): memory after a failed Load is unspecified (R98; 93_implementation_defined.md S8
`any value`), so a Load that fails answers a reason and no state, and nothing can be said of memory after it. The order
of the two checks is the model's. -/
def load (image : List Byte) (h : Session) : Except Refusal Session :=
  if imageWellFormed image = false then .error (.loadOverflow image.length)
  else
    match h with
    | .afterReset => .ok (.loaded (State.reset.writeBytes Config.loadBase image))
    | .needsReset => .error .loadNotAfterReset
    | .loaded _ => .error .loadNotAfterReset
    | .started _ => .error .loadNotAfterReset

/-- Run (R93): the state the run loop starts from, which is the current one: after Reset and a Load or, where Load is skipped
(R121), after Reset alone. Of a machine that has stopped since its last Run it "returns at once" (R68), halted or faulted
(D14): the loop takes no step from that state. It is no move of the host while the core runs (R94), and refused where no
Reset stands before it (S9, R98); log entry 17. -/
def runFrom : Session → Except Refusal State
  | .afterReset => .ok State.reset
  | .loaded s => .ok s
  | .needsReset => .error .runNotAfterReset
  | .started s =>
    match stopReason s with
    | some _ => .ok s
    | none => .error .runWhileRunning

/-- A move of one of the two agents (R90): a transaction of the host, or a step of the core. -/
inductive Move where
  | reset
  | load (image : List Byte)
  | run
  | coreStep
deriving DecidableEq, Repr

/-- The machine after one move. The core steps after Run alone, and a stopped core stays as it is (R68). A transaction that
fails or is refused leaves a machine that needs Reset: the model's choice, safe (log entry 8). -/
def Session.move (t : OpcodeTable) (m : Move) (h : Session) : Session :=
  match m with
  | .reset => .afterReset
  | .load image =>
    match Machine.load image h with
    | .ok h' => h'
    | .error _ => .needsReset
  | .run =>
    match runFrom h with
    | .ok s => .started s
    | .error _ => .needsReset
  | .coreStep =>
    match h with
    | .started s =>
      match stepWith t s with
      | .next s' => .started s'
      | .fault _ => .started s
      | .refused _ => .started s
    | .needsReset => .needsReset
    | .afterReset => .afterReset
    | .loaded s => .loaded s

/-- The machine after some moves, the first one first. -/
def Session.moves (t : OpcodeTable) : List Move → Session → Session
  | [], h => h
  | m :: ms, h => Session.moves t ms (h.move t m)

/-! ### Runs -/

/-- How a bounded run ended. -/
inductive RunEnd where
  /-- The core is stopped in `s`, halted or faulted as `why` says (R64, R96). -/
  | stopped (why : Fault) (s : State)
  /-- The bound was reached and the core still runs: neither halted nor faulted (R67, 92_eei_decisions.md D17). -/
  | didNotFinish (s : State)
  /-- A step from `s` was refused. No step of this machine is; the case is here because a step's type has it. -/
  | refused (why : Refusal) (s : State)
  /-- The Load failed as `why` says and no step was taken (R98, R107, R121). DESIGN CHOICE, safe (log entry 8): there is
  no state here, since memory after a failed Load is unspecified (S8) and the core must not run before the next Reset. -/
  | notLaunched (why : Refusal)
deriving DecidableEq, Repr

/-- Run (R64, R93) for at most `fuel` steps: step after step while the core is not stopped. The bound is the model's
and is no part of the hardware (R67). -/
def runWith (t : OpcodeTable) : Nat → State → RunEnd
  | 0, s =>
    match stopReason s with
    | some why => .stopped why s
    | none => .didNotFinish s
  | fuel + 1, s =>
    match stepWith t s with
    | .next s' => runWith t fuel s'
    | .fault why => .stopped why s
    | .refused why => .refused why s

/-- The boot sequence up to its first step (R121): Reset, a Load "which must succeed", and the state Run starts from. -/
def launch (image : List Byte) : Except Refusal State := (load image .afterReset).bind runFrom

/-- The boot sequence (R121), with a run of at most `fuel` steps. A Load that fails ends it with no run and no state: the
model's choice for the memory that R98 and S8 leave open (log entry 8). -/
def boot (t : OpcodeTable) (image : List Byte) (fuel : Nat) : RunEnd :=
  match launch image with
  | .ok s => runWith t fuel s
  | .error why => .notLaunched why

/-! ### Status and fault report (R96, R97, R100) -/

/-- The host's `halted`: `RUN` = 0 (R96). -/
def State.isHalted (s : State) : Bool := !s.run

/-- The host's `faulted`: `FAULT` is not `none` (R96). -/
def State.isFaulted (s : State) : Bool := s.fault.isSome

/-- The kind number of a record, used on the fault port only (R97, R100). -/
def FaultRecord.kind : FaultRecord → Nat
  | .unsupportedOpcode _ _ => 0
  | .invalidRegisterIndex _ _ _ => 1

/-- The opcode byte a record identifies (R19, R97 `fault_opcode`). -/
def FaultRecord.opcode : FaultRecord → Byte
  | .unsupportedOpcode opcode _ => opcode
  | .invalidRegisterIndex opcode _ _ => opcode

/-- The operand byte a record identifies, where it has one (R19, R97 `fault_operand`). -/
def FaultRecord.operand : FaultRecord → Option Byte
  | .unsupportedOpcode _ _ => none
  | .invalidRegisterIndex _ operand _ => some operand

/-- The value of `pc` at the fetch that a record identifies (R19, R97 `fault_pc`). -/
def FaultRecord.pcAt : FaultRecord → Byte
  | .unsupportedOpcode _ pcAt => pcAt
  | .invalidRegisterIndex _ _ pcAt => pcAt

/-! ### Output (R95) -/

/-- The line the host shows for one emitted byte: the unsigned decimal numeral and one line terminator, which is the
host's to choose (R95, 92_eei_decisions.md D8, S12). -/
def renderLine (terminator : String) (b : Byte) : String := toString b.toNat ++ terminator

/-- The lines the host shows for a run's output, in the order the PRN instructions executed (R95). -/
def renderedLines (terminator : String) (s : State) : List String := s.out.map (renderLine terminator)

end Sys2Proof.Machine
end

