-- ==== Sys2Proof/Safety.lean ====
section
/-! DEFINITION. The terms the statements use: the status of the core, what an instruction leaves alone, runs, and the
invariant of the machine. -/

namespace Sys2Proof.Machine

/-! ### Status of the core (R60, R64, R96; 00_scope.md R8 "stopped", "halted", "faulted") -/

/-- The precondition of a step: `RUN` = 1 and `FAULT` = none (R60). -/
def Running (s : State) : Prop := s.run = true ∧ s.fault = none

/-- Halted: `RUN` = 0 (R8, R96). -/
def Halted (s : State) : Prop := s.run = false

/-- Faulted: `FAULT` is not `none` (R8, R96). -/
def Faulted (s : State) : Prop := s.fault ≠ none

/-! ### What stays as it was -/

/-- Every register outside `ds` keeps its value. -/
def SameRegsExcept (ds : List Reg) (s u : State) : Prop := ∀ q : Reg, q ∉ ds → u.reg q = s.reg q

/-- Every cell outside `cells` keeps its byte. -/
def SameMemExcept (cells : List Byte) (s u : State) : Prop := ∀ a : Byte, a ∉ cells → u.readMem a = s.readMem a

/-- `RUN` and the fault latch keep their values. -/
def SameStatus (s u : State) : Prop := u.run = s.run ∧ u.fault = s.fault

/-- `u` and `w` show the same everywhere but in the register `q`, which holds `v` in `w`. -/
def SameApartFrom (q : Reg) (v : Byte) (u w : State) : Prop :=
  SameRegsExcept [q] u w ∧ w.reg q = v ∧ SameMemExcept [] u w ∧ w.fl = u.fl ∧ w.pc = u.pc ∧ SameStatus u w ∧
    w.out = u.out

/-! ### Runs -/

/-- `u` is reached from `s` by some number of steps of the core (R64). -/
inductive Reaches (t : OpcodeTable) : State → State → Prop where
  | here (s : State) : Reaches t s s
  | step (s u v : State) : Reaches t s u → stepWith t u = .next v → Reaches t s v

/-- `u` is reached in a run of the boot sequence on `image` (R121): Reset, Load, Run, steps. -/
def ReachedFromBoot (t : OpcodeTable) (image : List Byte) (u : State) : Prop :=
  ∃ s, launch image = .ok s ∧ Reaches t s u

/-- A safe run from `s`: no state reached is faulted (R64 b never happens). -/
def FaultFree (t : OpcodeTable) (s : State) : Prop := ∀ u, Reaches t s u → ¬ Faulted u

/-! ### How a step comes to an instruction

One definition per operand shape (R46, R56), said of every well-formed opcode table, since the source fixes no opcode
byte (R51, 92_eei_decisions.md D1). `m` is the row whose byte stands at `pc`. -/

/-- A row without operands: the step executes it (R46 F0). -/
def StepsToNoOperand (m : Mnemonic) (i : Instr) : Prop :=
  ∀ (t : OpcodeTable) (s : State), t.wellFormed = true → Running s → s.readMem s.pc = t m → stepWith t s = exec i s

/-- A row with one register operand (R46 F1): the step executes it with the register `b1` names, or, if `b1` is above 7,
changes the fault latch and nothing else (R48, R102, R104). -/
def StepsToOneRegister (m : Mnemonic) (i : Reg → Instr) : Prop :=
  ∀ (t : OpcodeTable) (s : State), t.wellFormed = true → Running s → s.readMem s.pc = t m →
    (∀ r : Reg, (s.readMem (s.pc + 1)).toNat = r.val → stepWith t s = exec (i r) s) ∧
    (7 < (s.readMem (s.pc + 1)).toNat → stepWith t s =
      .next { s with fault := some (.invalidRegisterIndex (t m) (s.readMem (s.pc + 1)) s.pc) })

/-- LDI's shape (R46 F2, R49): as one register operand, with the byte after it as the immediate, whatever it is. -/
def StepsToRegisterAndImmediate (m : Mnemonic) (i : Reg → Byte → Instr) : Prop :=
  ∀ (t : OpcodeTable) (s : State), t.wellFormed = true → Running s → s.readMem s.pc = t m →
    (∀ r : Reg, (s.readMem (s.pc + 1)).toNat = r.val → stepWith t s = exec (i r (s.readMem (s.pc + 2))) s) ∧
    (7 < (s.readMem (s.pc + 1)).toNat → stepWith t s =
      .next { s with fault := some (.invalidRegisterIndex (t m) (s.readMem (s.pc + 1)) s.pc) })

/-- A row with two register operands (R46 F2): `b1` is checked first, then `b2` (R48, R103). -/
def StepsToTwoRegisters (m : Mnemonic) (i : Reg → Reg → Instr) : Prop :=
  ∀ (t : OpcodeTable) (s : State), t.wellFormed = true → Running s → s.readMem s.pc = t m →
    (∀ rA rB : Reg, (s.readMem (s.pc + 1)).toNat = rA.val → (s.readMem (s.pc + 2)).toNat = rB.val →
      stepWith t s = exec (i rA rB) s) ∧
    (7 < (s.readMem (s.pc + 1)).toNat → stepWith t s =
      .next { s with fault := some (.invalidRegisterIndex (t m) (s.readMem (s.pc + 1)) s.pc) }) ∧
    (∀ rA : Reg, (s.readMem (s.pc + 1)).toNat = rA.val → 7 < (s.readMem (s.pc + 2)).toNat → stepWith t s =
      .next { s with fault := some (.invalidRegisterIndex (t m) (s.readMem (s.pc + 2)) s.pc) })

/-! ### The spec's tables of what an instruction reads, writes and continues at -/

/-- R14, column "registers read". JEQ and JNE read their register when taken. -/
def regsRead (i : Instr) (s : State) : List Reg :=
  match i with
  | .ldi _ _ => []
  | .prn r => [r]
  | .mul rA rB => [rA, rB]
  | .add rA rB => [rA, rB]
  | .cmp rA rB => [rA, rB]
  | .push r => [7, r]
  | .pop _ => [7]
  | .call r => [7, r]
  | .ret => [7]
  | .jmp r => [r]
  | .jeq r => if s.fl.getLsbD 0 then [r] else []
  | .jne r => if s.fl.getLsbD 0 then [] else [r]
  | .hlt => []

/-- R14, column "registers written". -/
def regsWritten (i : Instr) : List Reg :=
  match i with
  | .ldi r _ => [r]
  | .prn _ => []
  | .mul rA _ => [rA]
  | .add rA _ => [rA]
  | .cmp _ _ => []
  | .push _ => [7]
  | .pop r => [r, 7]
  | .call _ => [7]
  | .ret => [7]
  | .jmp _ => []
  | .jeq _ => []
  | .jne _ => []
  | .hlt => []

/-- R66: where each instruction continues, in the state before it. R66's table says no more of CALL's target than
"register"; that CALL R7 goes to the decremented `SP` is R81's corner case, the spec's decision D7 (log entry 6). -/
def nextPc (i : Instr) (s : State) : Byte :=
  match i with
  | .ldi _ _ => s.pc + 3
  | .prn _ => s.pc + 2
  | .mul _ _ => s.pc + 3
  | .add _ _ => s.pc + 3
  | .cmp _ _ => s.pc + 3
  | .push _ => s.pc + 2
  | .pop _ => s.pc + 2
  | .call r => if r = 7 then s.reg 7 - 1 else s.reg r
  | .ret => s.readMem (s.reg 7)
  | .jmp r => s.reg r
  | .jeq r => if s.fl.getLsbD 0 then s.reg r else s.pc + 2
  | .jne r => if s.fl.getLsbD 0 then s.pc + 2 else s.reg r
  | .hlt => s.pc + 1

/-! ### The invariant -/

/-- What holds of the machine at Reset, after Load and after every step:
memory is canonical (R11; the model's representation), `FL` is 0x00 or 0x01 (R16), the core is never both halted and
faulted (R96), and a latched record is what the decoder finds at `pc` (R19, R101, R102, R104). -/
structure Inv (t : OpcodeTable) (s : State) : Prop where
  memCanonical : s.mem.wf = true
  flagsOnlyEqual : s.fl = 0x00#8 ∨ s.fl = 0x01#8
  notHaltedAndFaulted : ¬ (Halted s ∧ Faulted s)
  recordIsAccurate : ∀ record, s.fault = some record →
    ∃ why, decodeAtPc t s = .error why ∧ record = illegalRecord why s.pc

end Sys2Proof.Machine
end

