-- ==== Sys2Proof/Certificates/Slice0/Obligations.lean ====
section
/-! DEFINITION. The statements for the provers. Where a statement speaks of `stepWith t`, it holds for every opcode table `t`
with 13 pairwise different bytes (30_encoding.md R51, 92_eei_decisions.md D1); `step` is the step under the default table.
A clause about a register operand byte above 7 follows R48, R102 and R104, which the spec marks as its own decisions
D3, D19 and D6; a clause on `pc` or `SP` arithmetic past 255 or below 0 follows R37, decisions D2 and D4. -/

open Sys2Proof Sys2Proof.Machine

/-! ### The 13 instructions -/

/-- LDI reg, immediate (R70): the whole rule. It completes in every state with every operand; `x[r]` takes the
immediate, `pc` goes on by 3, and nothing else changes. -/
def Obligations.LdiLoadsTheImmediate : Prop :=
  (∀ (s : State) (r : Reg) (imm : Byte), ∃ u, exec (.ldi r imm) s = .next u ∧
    u.reg r = imm ∧ u.pc = s.pc + 3 ∧
    SameRegsExcept [r] s u ∧ SameMemExcept [] s u ∧ u.fl = s.fl ∧ SameStatus s u ∧ u.out = s.out) ∧
  StepsToRegisterAndImmediate .ldi Instr.ldi

/-- PRN reg (R71): the byte of `x[r]` is appended to `OUT`, `pc` goes on by 2, and nothing else changes. That the emit
is complete with the step and cannot fail is the spec's decision D8. -/
def Obligations.PrnEmitsTheRegister : Prop :=
  (∀ (s : State) (r : Reg), ∃ u, exec (.prn r) s = .next u ∧
    u.out = s.out ++ [s.reg r] ∧ u.pc = s.pc + 2 ∧
    SameRegsExcept [] s u ∧ SameMemExcept [] s u ∧ u.fl = s.fl ∧ SameStatus s u) ∧
  StepsToOneRegister .prn Instr.prn

/-- MUL regA, regB (R73): the whole rule. The product modulo 256, both operands read before the write. -/
def Obligations.MulMultipliesModulo256 : Prop :=
  (∀ (s : State) (rA rB : Reg), ∃ u, exec (.mul rA rB) s = .next u ∧
    (u.reg rA).toNat = ((s.reg rA).toNat * (s.reg rB).toNat) % 256 ∧ u.pc = s.pc + 3 ∧
    SameRegsExcept [rA] s u ∧ SameMemExcept [] s u ∧ u.fl = s.fl ∧ SameStatus s u ∧ u.out = s.out) ∧
  StepsToTwoRegisters .mul Instr.mul

/-- ADD regA, regB (R74): the whole rule. The sum modulo 256, both operands read before the write; adding 255
subtracts 1. -/
def Obligations.AddAddsModulo256 : Prop :=
  (∀ (s : State) (rA rB : Reg), ∃ u, exec (.add rA rB) s = .next u ∧
    (u.reg rA).toNat = ((s.reg rA).toNat + (s.reg rB).toNat) % 256 ∧ u.pc = s.pc + 3 ∧
    (s.reg rB = 255 → u.reg rA = s.reg rA - 1) ∧
    SameRegsExcept [rA] s u ∧ SameMemExcept [] s u ∧ u.fl = s.fl ∧ SameStatus s u ∧ u.out = s.out) ∧
  StepsToTwoRegisters .add Instr.add

/-- CMP regA, regB (R75): the whole rule. Equal operands set `FL.E` and keep every other bit of `FL`; unequal operands
leave `FL` as it was; and once `FL.E` is 1, every later JEQ is taken and no later JNE is. -/
def Obligations.CmpOnlyEverSetsEqual : Prop :=
  (∀ (s : State) (rA rB : Reg), ∃ u, exec (.cmp rA rB) s = .next u ∧
    (s.reg rA = s.reg rB → u.fl.getLsbD 0 = true ∧ ∀ k, 1 ≤ k → k < 8 → u.fl.getLsbD k = s.fl.getLsbD k) ∧
    (s.reg rA ≠ s.reg rB → u.fl = s.fl) ∧ u.pc = s.pc + 3 ∧
    SameRegsExcept [] s u ∧ SameMemExcept [] s u ∧ SameStatus s u ∧ u.out = s.out) ∧
  StepsToTwoRegisters .cmp Instr.cmp ∧
  (∀ (t : OpcodeTable) (s v : State) (r : Reg), Reaches t s v → s.fl.getLsbD 0 = true →
    (∃ w, exec (.jeq r) v = .next w ∧ w.pc = v.reg r) ∧ (∃ w, exec (.jne r) v = .next w ∧ w.pc = v.pc + 2))

/-- PUSH reg (R78): `SP` goes down by one, the register is stored in the cell at the new `SP`, `pc` goes on by 2, and
nothing else changes. That PUSH R7 stores the decremented `SP` is the spec's decision D7. -/
def Obligations.PushStoresBelowTheStackTop : Prop :=
  (∀ (s : State) (r : Reg), ∃ u, exec (.push r) s = .next u ∧
    u.reg 7 = s.reg 7 - 1 ∧
    u.readMem (s.reg 7 - 1) = (if r = 7 then s.reg 7 - 1 else s.reg r) ∧ u.pc = s.pc + 2 ∧
    SameRegsExcept [7] s u ∧ SameMemExcept [s.reg 7 - 1] s u ∧ u.fl = s.fl ∧ SameStatus s u ∧ u.out = s.out) ∧
  StepsToOneRegister .push Instr.push

/-- POP reg (R79): the register takes the byte at the old `SP`, then `SP` goes up by one, `pc` goes on by 2; no cell
changes. That POP R7 ends with the popped byte plus one is the spec's decision D7. -/
def Obligations.PopLoadsTheStackTop : Prop :=
  (∀ (s : State) (r : Reg), ∃ u, exec (.pop r) s = .next u ∧
    (r ≠ 7 → u.reg r = s.readMem (s.reg 7) ∧ u.reg 7 = s.reg 7 + 1) ∧
    (r = 7 → u.reg 7 = s.readMem (s.reg 7) + 1) ∧ u.pc = s.pc + 2 ∧
    SameRegsExcept [r, 7] s u ∧ SameMemExcept [] s u ∧ u.fl = s.fl ∧ SameStatus s u ∧ u.out = s.out) ∧
  StepsToOneRegister .pop Instr.pop

/-- CALL reg (R81): the return address `pc +8 2` is pushed and `pc` takes the register, read after the push. That CALL R7
jumps to the decremented `SP` is the spec's decision D7. -/
def Obligations.CallPushesTheReturnAddress : Prop :=
  (∀ (s : State) (r : Reg), ∃ u, exec (.call r) s = .next u ∧
    u.reg 7 = s.reg 7 - 1 ∧ u.readMem (s.reg 7 - 1) = s.pc + 2 ∧
    u.pc = (if r = 7 then s.reg 7 - 1 else s.reg r) ∧
    SameRegsExcept [7] s u ∧ SameMemExcept [s.reg 7 - 1] s u ∧ u.fl = s.fl ∧ SameStatus s u ∧ u.out = s.out) ∧
  StepsToOneRegister .call Instr.call

/-- RET (R82): the whole rule. `pc` takes the byte at the old `SP`, whatever pushed it, and `SP` goes up by one; no cell
changes. It has no operand and no fault of its own. -/
def Obligations.RetReturnsToTheStackTop : Prop :=
  (∀ s : State, ∃ u, exec .ret s = .next u ∧
    u.pc = s.readMem (s.reg 7) ∧ u.reg 7 = s.reg 7 + 1 ∧
    SameRegsExcept [7] s u ∧ SameMemExcept [] s u ∧ u.fl = s.fl ∧ SameStatus s u ∧ u.out = s.out) ∧
  StepsToNoOperand .ret Instr.ret

/-- JMP reg (R83): the whole rule. `pc` takes the register and nothing else changes, so a JMP to its own address changes
no state. -/
def Obligations.JmpGoesToTheRegister : Prop :=
  (∀ (s : State) (r : Reg), ∃ u, exec (.jmp r) s = .next u ∧
    u.pc = s.reg r ∧ (s.reg r = s.pc → u = s) ∧
    SameRegsExcept [] s u ∧ SameMemExcept [] s u ∧ u.fl = s.fl ∧ SameStatus s u ∧ u.out = s.out) ∧
  StepsToOneRegister .jmp Instr.jmp

/-- JEQ reg (R84): taken exactly when `FL.E` is 1, else past its two bytes; `FL` is not consumed. That a bad register
operand faults although the branch is not taken is the spec's decision D19. -/
def Obligations.JeqBranchesWhenEqualIsSet : Prop :=
  (∀ (s : State) (r : Reg), ∃ u, exec (.jeq r) s = .next u ∧
    (s.fl.getLsbD 0 = true → u.pc = s.reg r) ∧ (s.fl.getLsbD 0 = false → u.pc = s.pc + 2) ∧
    SameRegsExcept [] s u ∧ SameMemExcept [] s u ∧ u.fl = s.fl ∧ SameStatus s u ∧ u.out = s.out) ∧
  StepsToOneRegister .jeq Instr.jeq

/-- JNE reg (R85): taken exactly when `FL.E` is 0, else past its two bytes. The register check is decision D19, as for
JEQ. -/
def Obligations.JneBranchesWhenEqualIsClear : Prop :=
  (∀ (s : State) (r : Reg), ∃ u, exec (.jne r) s = .next u ∧
    (s.fl.getLsbD 0 = false → u.pc = s.reg r) ∧ (s.fl.getLsbD 0 = true → u.pc = s.pc + 2) ∧
    SameRegsExcept [] s u ∧ SameMemExcept [] s u ∧ u.fl = s.fl ∧ SameStatus s u ∧ u.out = s.out) ∧
  StepsToOneRegister .jne Instr.jne

/-- HLT (R86): the whole rule. `RUN` becomes 0, `pc` goes on by 1 and nothing else changes; the core then takes no step
and its state is final, which only Reset leaves; and no other step ends with `RUN` = 0. -/
def Obligations.HltEndsTheRun : Prop :=
  (∀ s : State, ∃ u, exec .hlt s = .next u ∧
    u.run = false ∧ u.pc = s.pc + 1 ∧
    SameRegsExcept [] s u ∧ SameMemExcept [] s u ∧ u.fl = s.fl ∧ u.fault = s.fault ∧ u.out = s.out ∧
    (Running s → ∀ t : OpcodeTable, stepWith t u = .fault .coreHalted ∧ ∀ v, Reaches t u v → v = u) ∧
    resetCore u = State.reset) ∧
  StepsToNoOperand .hlt Instr.hlt ∧
  (∀ (t : OpcodeTable) (s u : State), t.wellFormed = true → stepWith t s = .next u → u.run = false →
    s.readMem s.pc = t .hlt)

/-! ### State by state, over every step -/

/-- `FL` (R17): the whole rule. A step changes `FL` only by setting bit 0, and only as a CMP of equal registers; `FL.E`
stays 1 in every later state; and no instruction but JEQ and JNE depends on `FL`: with another `FL` before, the others
do the same to all other state. -/
def Obligations.EqualFlagIsStickyAndCmpsAlone : Prop :=
  (∀ (t : OpcodeTable) (s u : State), t.wellFormed = true → stepWith t s = .next u → u.fl ≠ s.fl →
    s.readMem s.pc = t .cmp ∧
    (∃ rA rB : Reg, (s.readMem (s.pc + 1)).toNat = rA.val ∧ (s.readMem (s.pc + 2)).toNat = rB.val ∧
      s.reg rA = s.reg rB) ∧
    s.fl.getLsbD 0 = false ∧ u.fl.getLsbD 0 = true ∧ ∀ k, 1 ≤ k → k < 8 → u.fl.getLsbD k = s.fl.getLsbD k) ∧
  (∀ (t : OpcodeTable) (s u : State), Reaches t s u → s.fl.getLsbD 0 = true → u.fl.getLsbD 0 = true) ∧
  (∀ (i : Instr) (s u : State) (f : Byte), (∀ r, i ≠ .jeq r) → (∀ r, i ≠ .jne r) → exec i s = .next u →
    ∃ g, exec i { s with fl := f } = .next { u with fl := g })

/-- `RUN` (R18): the whole rule. It is 1 after Reset; a step ends with 0 exactly when it executes HLT; a step that takes
a fault leaves it 1; no state reached from one with 0 has it 1; a core with it 0, or faulted, takes no step; the host
sees it as the halted status; and no instruction reads it. -/
def Obligations.RunIsClearedByHltAlone : Prop :=
  State.reset.run = true ∧
  (∀ (t : OpcodeTable) (s u : State), t.wellFormed = true → stepWith t s = .next u →
    (u.run = false ↔ s.readMem s.pc = t .hlt) ∧ (Faulted u → u.run = true)) ∧
  (∀ (t : OpcodeTable) (s u : State), s.run = false → Reaches t s u → u.run = false) ∧
  (∀ (t : OpcodeTable) (s : State), s.run = false ∨ Faulted s → ∃ why, stepWith t s = .fault why) ∧
  (∀ s : State, s.isHalted = true ↔ s.run = false) ∧
  (∀ (i : Instr) (s u : State) (b : Bool), exec i s = .next u →
    exec i { s with run := b } = .next { u with run := (if i = .hlt then false else b) })

/-- The register file (R14): the whole table, in both directions.

Written: an instruction leaves every register outside its "written" column as it was; each register in the column is
changed in some state; and the values written are those of the instruction's rule. (That `SP` wraps is the
spec's decision D4, log entry 3; POP R7's value, decision D7, is PopLoadsTheStackTop's.)

Read: an instruction does not depend on a register outside its "read" column: with another value there before, it does
the same to every other register, to memory, `FL`, `pc`, `RUN`, `FAULT` and `OUT`, and that register ends with the
written value or keeps the other one. On each register in the column it does depend: in some state, another value there
makes a difference beyond that. The one exception is CMP of a register with itself, which finds them equal whatever
value it reads (R75), so that no outcome shows the read. -/
def Obligations.RegistersReadAndWritten : Prop :=
  (∀ (i : Instr) (s u : State), exec i s = .next u → SameRegsExcept (regsWritten i) s u) ∧
  (∀ (i : Instr) (q : Reg), q ∈ regsWritten i → ∃ s u, exec i s = .next u ∧ u.reg q ≠ s.reg q) ∧
  (∀ (s : State) (r rA rB : Reg) (imm : Byte),
    (∃ u, exec (.ldi r imm) s = .next u ∧ u.reg r = imm) ∧
    (∃ u, exec (.mul rA rB) s = .next u ∧ u.reg rA = s.reg rA * s.reg rB) ∧
    (∃ u, exec (.add rA rB) s = .next u ∧ u.reg rA = s.reg rA + s.reg rB) ∧
    (∃ u, exec (.push r) s = .next u ∧ u.reg 7 = s.reg 7 - 1) ∧
    (r ≠ 7 → ∃ u, exec (.pop r) s = .next u ∧ u.reg r = s.readMem (s.reg 7) ∧ u.reg 7 = s.reg 7 + 1) ∧
    (∃ u, exec (.call r) s = .next u ∧ u.reg 7 = s.reg 7 - 1) ∧
    (∃ u, exec .ret s = .next u ∧ u.reg 7 = s.reg 7 + 1)) ∧
  (∀ (i : Instr) (s u : State) (q : Reg) (v : Byte), q ∉ regsRead i s → exec i s = .next u →
    ∃ w, exec i (s.setReg q v) = .next w ∧ SameApartFrom q (if q ∈ regsWritten i then u.reg q else v) u w) ∧
  (∀ (i : Instr) (s : State) (q : Reg), q ∈ regsRead i s → i ≠ .cmp q q →
    ∃ s' v u w, q ∈ regsRead i s' ∧ exec i s' = .next u ∧ exec i (s'.setReg q v) = .next w ∧
      ¬ SameApartFrom q (if q ∈ regsWritten i then u.reg q else v) u w)

/-- `OUT` (R20): a step changes it only as a PRN, by appending the register's byte; it only ever grows; and nothing reads
it. `OUT` as state is the spec's decision D8. -/
def Obligations.OutGrowsByPrnAlone : Prop :=
  (∀ (t : OpcodeTable) (s u : State), t.wellFormed = true → stepWith t s = .next u → u.out ≠ s.out →
    s.readMem s.pc = t .prn ∧ ∃ r : Reg, (s.readMem (s.pc + 1)).toNat = r.val ∧ u.out = s.out ++ [s.reg r]) ∧
  (∀ (t : OpcodeTable) (s u : State), Reaches t s u → s.out <+: u.out) ∧
  (∀ (t : OpcodeTable) (s u : State) (o : List Byte), stepWith t s = .next u →
    ∃ o', stepWith t { s with out := o } = .next { u with out := o' })

/-- Memory (R32, 90_conflicts.md C1): a step writes no cell unless it is a PUSH or a CALL, and then only the cell just
below the stack top. -/
def Obligations.MemoryIsWrittenByPushAndCallAlone : Prop :=
  ∀ (t : OpcodeTable) (s u : State), t.wellFormed = true → stepWith t s = .next u →
    (∀ a, u.readMem a ≠ s.readMem a → a = s.reg 7 - 1 ∧ (s.readMem s.pc = t .push ∨ s.readMem s.pc = t .call))

/-- `pc` (R66): after a step it is unchanged if the step took a fault, and otherwise what the instruction's row of R66
says: the sequential address, a register, or the stack top. The wrap past 255 is the spec's decision D2. R66's row for
CALL says only "register"; that the register of CALL R7 is the decremented `SP` is R81's corner case, the spec's
decision D7 (log entry 6). -/
def Obligations.NextPcComesFromFourSources : Prop :=
  ∀ (t : OpcodeTable) (s u : State), stepWith t s = .next u →
    (Faulted u ∧ u.pc = s.pc) ∨
    (¬ Faulted u ∧ ∃ i, decodeBytes t (s.readMem s.pc) (s.readMem (s.pc + 1)) (s.readMem (s.pc + 2)) = .ok i ∧
      u.pc = nextPc i s)

/-! ### Memory -/

/-- `MemRead` and `MemWrite` (R31): the whole rule. Both are total; a write changes its cell and nothing else; a cell not
written since Reset reads 0. -/
def Obligations.MemoryReadsTheLastWrite : Prop :=
  (∀ (s : State) (a v : Byte), (s.writeMem a v).readMem a = v ∧ SameMemExcept [a] s (s.writeMem a v) ∧
    SameRegsExcept [] s (s.writeMem a v) ∧ (s.writeMem a v).fl = s.fl ∧ (s.writeMem a v).pc = s.pc ∧
    SameStatus s (s.writeMem a v) ∧ (s.writeMem a v).out = s.out) ∧
  (∀ a : Byte, State.reset.readMem a = 0)

/-- Two canonical memories that read the same at all 256 addresses are the same data. About the model's own
representation of R11's array: log entry 11. -/
def Obligations.CanonicalMemoryIsDeterminedByItsCells : Prop :=
  ∀ m n : Memory, m.wf = true → n.wf = true → (∀ a : Byte, m.read a = n.read a) → m = n

/-! ### Encoding -/

/-- R52: under every table exactly 243 of the 256 byte values are no opcode, and the decoder reports such a byte whatever
stands after it, and reports no other byte so. -/
def Obligations.IllegalOpcodeBytes : Prop :=
  ∀ t : OpcodeTable, t.wellFormed = true →
    ((List.range 256).filter (fun n => decide (BitVec.ofNat 8 n ∉ Mnemonic.all.map t))).length = 243 ∧
    ∀ opcode b1 b2 : Byte, opcode ∉ Mnemonic.all.map t ↔
      decodeBytes t opcode b1 b2 = .error (.unsupportedOpcode opcode)

/-- R50: the whole rule. The number of bytes an instruction takes is a function of the opcode byte alone and is the
matched row's length, 1, 2 or 3 (stated of every table, so no bit of the opcode byte can encode it); an opcode that
matches no row has no length and is rejected whatever follows. -/
def Obligations.LengthIsAFunctionOfTheOpcode : Prop :=
  (∀ (t : OpcodeTable) (m : Mnemonic) (bs : List Byte) (i : Instr) (rest : List Byte), t.wellFormed = true →
    decode t (t m :: bs) = .ok (i, rest) →
      i.mnemonic = m ∧ bs.length + 1 = rest.length + m.length ∧ 1 ≤ m.length ∧ m.length ≤ 3) ∧
  (∀ (t : OpcodeTable) (opcode : Byte) (bs : List Byte), (∀ m, t m ≠ opcode) →
    decode t (opcode :: bs) = .error (.illegal (.unsupportedOpcode opcode)))

/-- R48, R56, R103: a matched row is decoded exactly when each of its register operand bytes is at most 7, and otherwise
the first that is not is reported. Faulting on such a byte, and on a branch that is not taken, is the spec's decisions
D3 and D19. -/
def Obligations.RegisterOperandBytesAreChecked : Prop :=
  ∀ (t : OpcodeTable) (m : Mnemonic) (b1 b2 : Byte), t.wellFormed = true →
    ((∃ i, decodeBytes t (t m) b1 b2 = .ok i) ↔ ∀ b ∈ registerOperandBytes m b1 b2, b.toNat ≤ 7) ∧
    (∀ b, decodeBytes t (t m) b1 b2 = .error (.invalidRegisterIndex (t m) b) ↔
      (registerOperandBytes m b1 b2).find? (fun x => decide (7 < x.toNat)) = some b)

/-- Decode and encode agree, for every instruction with every operand and every opcode table: decoding the encoding of
an instruction followed by any bytes gives the instruction and those bytes. -/
def Obligations.DecodeOfEncodeIsTheInstruction : Prop :=
  ∀ (t : OpcodeTable) (i : Instr) (rest : List Byte), t.wellFormed = true →
    decode t (encode t i ++ rest) = .ok (i, rest)

/-- Encode and decode agree the other way: bytes that decode to an instruction are its encoding, so each instruction has
one encoding and no bit of it is dropped. -/
def Obligations.DecodedBytesAreTheEncoding : Prop :=
  ∀ (t : OpcodeTable) (bs : List Byte) (i : Instr) (rest : List Byte),
    decode t bs = .ok (i, rest) → bs = encode t i ++ rest

/-- A few words written out from R46 and R51 decode to the instructions they stand for, and the default table has 13
pairwise different bytes. The opcode bytes are the spec's decision D1, presumed: log entry 1. -/
def Obligations.SampleWordsDecode : Prop :=
  OPC.wellFormed = true ∧
  decode OPC [0b10000010#8, 0b00000000#8, 0b00001000#8] = .ok (.ldi 0 8, []) ∧
  decode OPC [0b10100010#8, 0b00000000#8, 0b00000001#8] = .ok (.mul 0 1, []) ∧
  decode OPC [0b01000101#8, 0b00000111#8] = .ok (.push 7, []) ∧
  decode OPC [0b01010101#8, 0b00000010#8] = .ok (.jeq 2, []) ∧
  decode OPC [0b00010001#8] = .ok (.ret, []) ∧
  decode OPC [0b00000001#8] = .ok (.hlt, []) ∧
  decode OPC [0b01000111#8, 0b00001000#8] = .error (.illegal (.invalidRegisterIndex 0x47 8)) ∧
  decode OPC [0b00000000#8] = .error (.illegal (.unsupportedOpcode 0))

/-! ### The step -/

/-- R60, R61: in a running core whose bytes at `pc` decode to an instruction, the step is exactly its execution; `step` is
`stepWith` of the default table. -/
def Obligations.StepRunsTheDecodedInstruction : Prop :=
  (∀ (s : State) (i : Instr) (rest : List Byte), Running s →
    decode OPC [s.readMem s.pc, s.readMem (s.pc + 1), s.readMem (s.pc + 2)] = .ok (i, rest) → step s = exec i s) ∧
  (∀ s : State, step s = stepWith OPC s)

/-- An instruction of the opcode table stored where the step fetches is the one the next step executes, and a word that
is none makes the next step take a fault. About the model's own `withFetchWord`: log entry 9. -/
def Obligations.FetchWordIsTheNextInstruction : Prop :=
  ∀ (s : State) (nbits w : Nat), Running s →
    (∀ i, decodeTableWord nbits w = some i → step (s.withFetchWord nbits w) = exec i (s.withFetchWord nbits w)) ∧
    (decodeTableWord nbits w = none → ∃ record,
      step (s.withFetchWord nbits w) = .next { s.withFetchWord nbits w with fault := some record }) ∧
    SameMemExcept [s.pc, s.pc + 1, s.pc + 2] s (s.withFetchWord nbits w) ∧
    SameRegsExcept [] s (s.withFetchWord nbits w) ∧ (s.withFetchWord nbits w).fl = s.fl ∧
    (s.withFetchWord nbits w).pc = s.pc ∧ SameStatus s (s.withFetchWord nbits w) ∧
    (s.withFetchWord nbits w).out = s.out

/-- From R101: under every table a fetched byte that is none of its opcodes latches `UnsupportedOpcode` with that byte and
`pc` and changes nothing else. The second clause, that the first step after Reset with an empty image does so with 0 and
0, rests on the default table, in which 0x00 is no opcode: the spec's decision D1, presumed (log entry 1). -/
def Obligations.UnsupportedOpcodeIsReported : Prop :=
  (∀ (t : OpcodeTable) (s : State), Running s → (∀ m, t m ≠ s.readMem s.pc) →
    stepWith t s = .next { s with fault := some (.unsupportedOpcode (s.readMem s.pc) s.pc) }) ∧
  step State.reset = .next { State.reset with fault := some (.unsupportedOpcode 0 0) }

/-- R100, R102 to R104: a step that ends with the latch set changes the latch alone, and the record says what stands at
`pc`: an opcode byte that is no row's, or a row's byte with the first bad register operand byte. The latch is the
spec's decision D6, the register fault its decision D3. -/
def Obligations.FaultingStepChangesTheLatchAlone : Prop :=
  ∀ (t : OpcodeTable) (s u : State) (record : FaultRecord), stepWith t s = .next u → u.fault = some record →
    u = { s with fault := some record } ∧
    ((record = .unsupportedOpcode (s.readMem s.pc) s.pc ∧ ∀ m, t m ≠ s.readMem s.pc) ∨
      ∃ (m : Mnemonic) (b : Byte), t m = s.readMem s.pc ∧
        record = .invalidRegisterIndex (s.readMem s.pc) b s.pc ∧
        (registerOperandBytes m (s.readMem (s.pc + 1)) (s.readMem (s.pc + 2))).find?
          (fun x => decide (7 < x.toNat)) = some b)

/-- R60, R68: a running core always takes a step, whatever memory holds; a stopped core takes none, answers why, and its
state is final, however long it is left. Of a core both halted and faulted, which R96 excludes, the model reports the
fault: log entry 10. -/
def Obligations.StepsExactlyWhileRunning : Prop :=
  (∀ (t : OpcodeTable) (s : State), Running s → ∃ u, stepWith t s = .next u) ∧
  (∀ (t : OpcodeTable) (s : State), Halted s → ¬ Faulted s → stepWith t s = .fault .coreHalted) ∧
  (∀ (t : OpcodeTable) (s : State) (record : FaultRecord), s.fault = some record →
    stepWith t s = .fault (.coreFaulted record)) ∧
  (∀ (t : OpcodeTable) (s u : State), ¬ Running s → Reaches t s u → u = s) ∧
  (∀ (t : OpcodeTable) (s : State) (n : Nat), ¬ Running s → ∃ why, runWith t n s = .stopped why s)

/-- R42: a byte a PUSH stores at the address of the next instruction is the opcode the very next step fetches. -/
def Obligations.PushedByteIsTheNextOpcode : Prop :=
  ∀ (t : OpcodeTable) (s : State) (r : Reg), t.wellFormed = true → Running s →
    s.readMem s.pc = t .push → (s.readMem (s.pc + 1)).toNat = r.val → r ≠ 7 → s.reg 7 - 1 = s.pc + 2 →
    ∃ u, stepWith t s = .next u ∧
      (∀ i, decodeBytes t (s.reg r) (s.readMem (s.pc + 3)) (s.readMem (s.pc + 4)) = .ok i →
        stepWith t u = exec i u) ∧
      ((∀ m, t m ≠ s.reg r) → stepWith t u =
        .next { u with fault := some (.unsupportedOpcode (s.reg r) (s.pc + 2)) })

/-! ### Several steps -/

/-- R78's property: PUSH followed immediately by POP into the same register leaves every register as it was, `R7` included
(the spec's decision D7), provided the pushed cell is not one of the POP's own bytes. -/
def Obligations.PushThenPopRoundTrip : Prop :=
  ∀ (t : OpcodeTable) (s : State) (r : Reg), t.wellFormed = true → Running s →
    s.readMem s.pc = t .push → (s.readMem (s.pc + 1)).toNat = r.val →
    s.readMem (s.pc + 2) = t .pop → (s.readMem (s.pc + 3)).toNat = r.val →
    s.reg 7 - 1 ≠ s.pc + 2 → s.reg 7 - 1 ≠ s.pc + 3 →
    ∃ u v, stepWith t s = .next u ∧ stepWith t u = .next v ∧
      (∀ q : Reg, v.reg q = s.reg q) ∧ v.pc = s.pc + 4 ∧
      SameMemExcept [s.reg 7 - 1] s v ∧ v.fl = s.fl ∧ SameStatus s v ∧ v.out = s.out

/-- R81's property. A RET executed in any later state of the run that has `SP` and the return cell as the CALL left them
goes to `call_site + 2` and gives `SP` back; and where the CALL's target holds a RET, the two steps leave every register
as it was and change no cell but the one below the stack top. -/
def Obligations.CallThenRetReturns : Prop :=
  ∀ (t : OpcodeTable) (s : State) (r : Reg), t.wellFormed = true → Running s →
    s.readMem s.pc = t .call → (s.readMem (s.pc + 1)).toNat = r.val →
    ∃ u, stepWith t s = .next u ∧
      (∀ w, Reaches t u w → Running w → w.readMem w.pc = t .ret → w.reg 7 = u.reg 7 →
        w.readMem (u.reg 7) = u.readMem (u.reg 7) →
        ∃ v, stepWith t w = .next v ∧ v.pc = s.pc + 2 ∧ v.reg 7 = s.reg 7) ∧
      (r ≠ 7 → s.readMem (s.reg r) = t .ret → s.reg r ≠ s.reg 7 - 1 →
        ∃ v, stepWith t u = .next v ∧ v.pc = s.pc + 2 ∧ (∀ q : Reg, v.reg q = s.reg q) ∧
          SameMemExcept [s.reg 7 - 1] s v ∧ v.fl = s.fl ∧ SameStatus s v ∧ v.out = s.out)

/-- R67: a JMP to its own address is an endless run: it never faults, and under every bound it is reported as not finished
in the unchanged state, never as a halt (the spec's decision D17). -/
def Obligations.JumpToItselfRunsForEver : Prop :=
  ∀ (t : OpcodeTable) (s : State) (r : Reg), t.wellFormed = true → Running s →
    s.readMem s.pc = t .jmp → (s.readMem (s.pc + 1)).toNat = r.val → s.reg r = s.pc →
    FaultFree t s ∧ ∀ n, runWith t n s = .didNotFinish s

/-- R64, R93: a bounded run that reports a stop has reached a state of the run in which the core is stopped, and a larger
bound reports the same. The bound is the model's own (R67, D17): log entry 7. -/
def Obligations.StoppedRunIsStable : Prop :=
  ∀ (t : OpcodeTable) (s u : State) (n : Nat) (why : Fault), runWith t n s = .stopped why u →
    Reaches t s u ∧ ¬ Running u ∧ stepWith t u = .fault why ∧ ∀ k, runWith t (n + k) s = .stopped why u

/-! ### Reset, Load and the invariant -/

/-- R22, R120: every item of state after Reset, from any state (R91). The values of `FAULT` and `OUT` are the spec's
decisions D6 and D8. -/
def Obligations.ResetLeavesTheSpecState : Prop :=
  ∀ s : State,
    (∀ a, (resetCore s).readMem a = 0) ∧ (∀ q : Reg, q ≠ 7 → (resetCore s).reg q = 0) ∧ (resetCore s).reg 7 = 255 ∧
    (resetCore s).fl = 0 ∧ (resetCore s).pc = 0 ∧ (resetCore s).run = true ∧ (resetCore s).fault = none ∧
    (resetCore s).out = []

/-- R92: a Load of at most 256 bytes after Reset puts the image at address 0 in order and changes nothing else. When Load
is allowed is the spec's decision D10. -/
def Obligations.LoadPlacesTheImage : Prop :=
  ∀ image : List Byte, image.length ≤ 256 → ∃ u, load image .afterReset = .ok (.loaded u) ∧
    (∀ (k : Nat) (h : k < image.length), u.readMem (BitVec.ofNat 8 k) = image[k]) ∧
    (∀ a : Byte, image.length ≤ a.toNat → u.readMem a = 0) ∧
    SameRegsExcept [] State.reset u ∧ u.fl = 0 ∧ u.pc = 0 ∧ SameStatus State.reset u ∧ u.out = []

/-- R98, R107: a Load of more than 256 bytes fails in every session, and no step follows it; a Load that does not stand
directly after Reset is refused (the spec's decision D10, log entry 8). Neither has a state: memory after a failed Load is
unspecified (R98, S8), and that the model answers none is its own choice (log entry 8). -/
def Obligations.LoadFailsOutsideItsContract : Prop :=
  (∀ (image : List Byte) (h : Session), 256 < image.length → load image h = .error (.loadOverflow image.length)) ∧
  (∀ (t : OpcodeTable) (image : List Byte) (n : Nat), 256 < image.length →
    boot t image n = .notLaunched (.loadOverflow image.length)) ∧
  (∀ (image : List Byte) (h : Session), image.length ≤ 256 → h ≠ .afterReset →
    load image h = .error .loadNotAfterReset)

/-- The invariant holds after Reset. -/
def Obligations.InvariantHoldsAfterReset : Prop := ∀ t : OpcodeTable, Inv t State.reset

/-- A Load is performed at most once between two Resets, and none after Run (R90, R92; the spec's decision D10 and S9). Once a
Load has succeeded, with any image, the empty one and one of zeros included, and whatever the host and the core do short
of Reset, the next Load is refused; so it is once a Run has been performed, and the next Run that is not refused is of a
stopped core (R68, R94). After a Reset, whatever stood before it, a Load of at most 256 bytes and a Run are performed
again. -/
def Obligations.LoadIsPerformedOnceAfterReset : Prop :=
  (∀ (t : OpcodeTable) (image next : List Byte) (h loaded : Session) (ms : List Move),
    load image h = .ok loaded → .reset ∉ ms →
    ∃ why, load next (Session.moves t ms loaded) = .error why ∧ (next.length ≤ 256 → why = .loadNotAfterReset)) ∧
  (∀ (t : OpcodeTable) (next : List Byte) (h : Session) (s : State) (ms : List Move),
    runFrom h = .ok s → .reset ∉ ms →
    (∃ why, load next (Session.moves t ms (h.move t .run)) = .error why ∧ (next.length ≤ 256 → why = .loadNotAfterReset)) ∧
    ∀ v, runFrom (Session.moves t ms (h.move t .run)) = .ok v →
      Session.moves t ms (h.move t .run) = .started v ∧ ¬ Running v) ∧
  (∀ (t : OpcodeTable) (image : List Byte) (h : Session) (ms : List Move), image.length ≤ 256 →
    (∃ s, load image ((Session.moves t ms h).move t .reset) = .ok (.loaded s) ∧ runFrom (.loaded s) = .ok s) ∧
    runFrom ((Session.moves t ms h).move t .reset) = .ok State.reset)

/-- Run of a machine that is not fresh (R68, R94, R98). Of a stopped core, halted or faulted, Run returns at once: it leaves the
machine as it is, the run loop takes no step under any bound, and so it stays however often Run is asked and the core
left to step (the spec's decision D14). Of a running core it is refused, and so it is without a Reset (S9; log entry 17). -/
def Obligations.RunOfAStoppedMachineReturnsAtOnce : Prop :=
  (∀ (t : OpcodeTable) (s : State), ¬ Running s →
    runFrom (.started s) = .ok s ∧
    (∀ n, ∃ why, runWith t n s = .stopped why s) ∧
    ∀ ms : List Move, (∀ m ∈ ms, m = .run ∨ m = .coreStep) → Session.moves t ms (.started s) = .started s) ∧
  (∀ s : State, Running s → runFrom (.started s) = .error .runWhileRunning) ∧
  runFrom .needsReset = .error .runNotAfterReset

/-- No state outlives its run (R21 d, R91 "no persistence of machine state across runs"): whatever the host and the core have
done since a machine was new, in whatever order, a core that has been started is in a state that the boot sequence (R121)
on some image of at most 256 bytes reaches. A Run without a Load is that on the empty image. That transactions out of
order give no state is the model's choice (log entry 8). -/
def Obligations.EveryRunStartsFromReset : Prop :=
  ∀ (t : OpcodeTable) (ms : List Move) (u : State), Session.moves t ms .needsReset = .started u →
    ∃ image : List Byte, image.length ≤ 256 ∧ ReachedFromBoot t image u

/-- The invariant holds after every Load that succeeds, and such a Load stood directly after Reset. -/
def Obligations.InvariantHoldsAfterLoad : Prop :=
  ∀ (t : OpcodeTable) (image : List Byte) (h h' : Session), load image h = .ok h' →
    h = .afterReset ∧ ∃ u, h' = .loaded u ∧ Inv t u

/-- Every step keeps the invariant, in every state that has it: memory stays canonical, `FL` stays 0x00 or 0x01, the core
is never both halted and faulted, and a latched record stays what the decoder finds at `pc`. -/
def Obligations.EveryStepKeepsTheInvariant : Prop :=
  (∀ s u : State, Inv OPC s → step s = .next u → Inv OPC u) ∧
  (∀ (t : OpcodeTable) (s u : State), Inv t s → stepWith t s = .next u → Inv t u)

/-- R16, R96: in every state of every run of every image under every table, `FL` is 0x00 or 0x01, so that Greater and Less
are 0, and the core is not both halted and faulted; a run that stops has one termination reason. -/
def Obligations.EveryRunKeepsFlagsAndStatus : Prop :=
  ∀ (t : OpcodeTable) (image : List Byte) (u : State), ReachedFromBoot t image u →
    (u.fl = 0x00 ∨ u.fl = 0x01) ∧ u.flagG = false ∧ u.flagL = false ∧
    ¬ (u.isHalted = true ∧ u.isFaulted = true) ∧
    (¬ Running u → (u.isHalted = true ∧ stepWith t u = .fault .coreHalted) ∨
      (u.isFaulted = true ∧ ∃ record, stepWith t u = .fault (.coreFaulted record)))

/-! ### The ALU -/

/-- R72, R76: the three operations of the ALU. That it has exactly these is the spec's decision D13. -/
def Obligations.AluOperations : Prop :=
  ∀ a b : Byte, (aluAdd a b).toNat = (a.toNat + b.toNat) % 256 ∧ (aluMul a b).toNat = (a.toNat * b.toNat) % 256 ∧
    (aluEq a b = true ↔ a = b)
end

