-- ==== Sys2Proof/Laws/Decode.lean ====
section
/-! SUPPORT. The small lemmas of the decoder: the lookup, the register check, and that the decoder accepts exactly the
operand bytes the spec's list calls legal. -/

namespace Sys2Proof

/-! ### The opcode table -/

theorem mem_all (m : Mnemonic) : m ∈ Mnemonic.all := by cases m <;> decide

/-- A well-formed table gives no byte twice. -/
theorem byte_injective {t : OpcodeTable} (h : t.wellFormed = true) {m n : Mnemonic} (e : t m = t n) : m = n := by
  have hp : (Mnemonic.all.map t).Pairwise (· ≠ ·) := by simpa [OpcodeTable.wellFormed] using h
  have hi := List.inj_on_of_nodup_map hp
  exact hi (mem_all m) (mem_all n) e

theorem OPC_wellFormed : OPC.wellFormed = true := by decide

/-! ### The lookup -/

/-- A row that is found has that byte. -/
theorem byte_of_lookup {t : OpcodeTable} {b : Byte} {m : Mnemonic} (h : lookup t b = some m) : t m = b := by
  simpa using List.find?_some h

/-- No row is found exactly when no row has the byte. -/
theorem lookup_eq_none {t : OpcodeTable} {b : Byte} : lookup t b = none ↔ ∀ m, t m ≠ b := by
  simp only [lookup, List.find?_eq_none, beq_iff_eq]
  exact ⟨fun h m => h m (mem_all m), fun h m _ => h m⟩

/-- In a well-formed table a row's own byte finds that row. -/
theorem lookup_byte {t : OpcodeTable} (h : t.wellFormed = true) (m : Mnemonic) : lookup t (t m) = some m := by
  cases hl : lookup t (t m) with
  | none => exact absurd rfl (lookup_eq_none.mp hl m)
  | some n => rw [byte_injective h (byte_of_lookup hl)]

/-! ### The register check -/

theorem withReg_of_lt {α : Type} {b : Byte} (k : Reg → Except Byte α) (h : b.toNat < 8) :
    withReg b k = k ⟨b.toNat, h⟩ := by simp [withReg, h]

theorem withReg_of_ge {α : Type} {b : Byte} (k : Reg → Except Byte α) (h : 7 < b.toNat) :
    withReg b k = .error b := by
  have : ¬ b.toNat < 8 := by omega
  simp [withReg, this]

theorem withReg_of_eq {α : Type} {b : Byte} (k : Reg → Except Byte α) {r : Reg} (h : b.toNat = r.val) :
    withReg b k = k r := by
  have hb : b.toNat < 8 := by omega
  rw [withReg_of_lt k hb]
  exact congrArg k (Fin.ext h)

theorem regByte_toNat (r : Reg) : (regByte r).toNat = r.val := by
  have : r.val < 256 := by omega
  simp [regByte, Nat.mod_eq_of_lt this]

@[simp] theorem withReg_regByte {α : Type} (r : Reg) (k : Reg → Except Byte α) : withReg (regByte r) k = k r :=
  withReg_of_eq k (regByte_toNat r)

/-! ### Operands -/

theorem isRegisterIndex_iff (b : Byte) : isRegisterIndex b = true ↔ b.toNat < 8 := by
  simp [isRegisterIndex]; omega

theorem withReg_ok_iff {α : Type} (b : Byte) (k : Reg → Except Byte α) :
    (∃ x, withReg b k = .ok x) ↔ ∃ h : b.toNat < 8, ∃ x, k ⟨b.toNat, h⟩ = .ok x := by
  by_cases h : b.toNat < 8 <;> simp [withReg, h]

/-- The decoder accepts exactly the operand bytes that R48 and R56 call legal. -/
theorem decodeOperands_ok_iff (m : Mnemonic) (b1 b2 : Byte) :
    (∃ i, decodeOperands m b1 b2 = .ok i) ↔ operandsWellFormed m b1 b2 = true := by
  cases m <;> simp [decodeOperands, operandsWellFormed, registerOperandBytes, withReg_ok_iff, isRegisterIndex_iff]

/-- The operand byte the decoder stops at is one of the row's register operand bytes and names no register. -/
theorem decodeOperands_error {m : Mnemonic} {b1 b2 b : Byte} (h : decodeOperands m b1 b2 = .error b) :
    b ∈ registerOperandBytes m b1 b2 ∧ 7 < b.toNat := by
  cases m <;> simp only [decodeOperands, withReg, registerOperandBytes] at h ⊢ <;>
    (repeat' split at h) <;> simp_all <;> omega

/-- Decoding succeeds exactly when a row matches and its operands do. -/
theorem decodeBytes_eq_ok {t : OpcodeTable} {opcode b1 b2 : Byte} {i : Instr} :
    decodeBytes t opcode b1 b2 = .ok i ↔ ∃ m, lookup t opcode = some m ∧ decodeOperands m b1 b2 = .ok i := by
  cases hl : lookup t opcode with
  | none => simp [decodeBytes, hl]
  | some m => cases ho : decodeOperands m b1 b2 <;> simp [decodeBytes, hl, ho]

/-- Decoding stops at the opcode exactly when no row matches. -/
theorem decodeBytes_eq_unsupported {t : OpcodeTable} {opcode b1 b2 b : Byte} :
    decodeBytes t opcode b1 b2 = .error (.unsupportedOpcode b) ↔ lookup t opcode = none ∧ b = opcode := by
  cases hl : lookup t opcode with
  | none => simp [decodeBytes, hl, eq_comm]
  | some m => cases ho : decodeOperands m b1 b2 <;> simp [decodeBytes, hl, ho]

/-- Decoding stops at a register operand exactly when a row matches and its operands stop at that byte. -/
theorem decodeBytes_eq_invalid {t : OpcodeTable} {opcode b1 b2 o b : Byte} :
    decodeBytes t opcode b1 b2 = .error (.invalidRegisterIndex o b) ↔
      o = opcode ∧ ∃ m, lookup t opcode = some m ∧ decodeOperands m b1 b2 = .error b := by
  cases hl : lookup t opcode with
  | none => simp [decodeBytes, hl]
  | some m => cases ho : decodeOperands m b1 b2 <;> simp [decodeBytes, hl, ho, eq_comm]

/-- Everything a successful decode of a list of bytes says: a row matched the first byte, the list holds the row's
length, its operands decoded, and the rest is what stands after the row's bytes. -/
theorem decode_eq_ok {t : OpcodeTable} {bs : List Byte} {i : Instr} {rest : List Byte}
    (h : decode t bs = .ok (i, rest)) :
    ∃ opcode tail m, bs = opcode :: tail ∧ lookup t opcode = some m ∧ m.length ≤ tail.length + 1 ∧
      decodeOperands m (tail.getD 0 0#8) (tail.getD 1 0#8) = .ok i ∧ rest = tail.drop (m.length - 1) := by
  cases bs with
  | nil => simp [decode] at h
  | cons opcode tail =>
    cases hl : lookup t opcode with
    | none => simp [decode, hl] at h
    | some m =>
      by_cases hlen : tail.length + 1 < m.length
      · simp [decode, hl, hlen] at h
      · cases hd : decodeBytes t opcode (tail.getD 0 0#8) (tail.getD 1 0#8) with
        | error e =>
          rw [decode, hl] at h
          simp only [hlen, if_false, hd] at h
          simp at h
        | ok j =>
          rw [decode, hl] at h
          simp only [hlen, if_false, hd, Except.ok.injEq, Prod.mk.injEq] at h
          obtain ⟨m', hl', ho⟩ := decodeBytes_eq_ok.mp hd
          obtain rfl : m = m' := by simpa [hl] using hl'
          exact ⟨opcode, tail, m, rfl, hl, by omega, h.1 ▸ ho, h.2.symm⟩

/-- The decoded instruction belongs to the row that matched. -/
theorem mnemonic_of_decodeOperands {m : Mnemonic} {b1 b2 : Byte} {i : Instr} (h : decodeOperands m b1 b2 = .ok i) :
    i.mnemonic = m := by
  cases m <;> simp only [decodeOperands, withReg] at h <;> (repeat' split at h) <;> simp_all [Instr.mnemonic] <;>
    (subst h; rfl)

end Sys2Proof
end

