-- ==== Sys2Proof/Laws/State.lean ====
section
/-! SUPPORT. The state's small lemmas: what each update does to each field (true by rfl), the reads of a register and of a
cell after each update, and the names that stand for an update of another name. -/

namespace Sys2Proof.Machine

/-! ### One lemma per field per update -/

@[simp] theorem setReg_mem (s : State) (r : Reg) (v : Byte) : (s.setReg r v).mem = s.mem := rfl
@[simp] theorem setReg_regs (s : State) (r : Reg) (v : Byte) : (s.setReg r v).regs = s.regs.set r.val v r.isLt := rfl
@[simp] theorem setReg_fl (s : State) (r : Reg) (v : Byte) : (s.setReg r v).fl = s.fl := rfl
@[simp] theorem setReg_pc (s : State) (r : Reg) (v : Byte) : (s.setReg r v).pc = s.pc := rfl
@[simp] theorem setReg_run (s : State) (r : Reg) (v : Byte) : (s.setReg r v).run = s.run := rfl
@[simp] theorem setReg_fault (s : State) (r : Reg) (v : Byte) : (s.setReg r v).fault = s.fault := rfl
@[simp] theorem setReg_out (s : State) (r : Reg) (v : Byte) : (s.setReg r v).out = s.out := rfl

@[simp] theorem writeMem_mem (s : State) (a v : Byte) : (s.writeMem a v).mem = s.mem.write a v := rfl
@[simp] theorem writeMem_regs (s : State) (a v : Byte) : (s.writeMem a v).regs = s.regs := rfl
@[simp] theorem writeMem_fl (s : State) (a v : Byte) : (s.writeMem a v).fl = s.fl := rfl
@[simp] theorem writeMem_pc (s : State) (a v : Byte) : (s.writeMem a v).pc = s.pc := rfl
@[simp] theorem writeMem_run (s : State) (a v : Byte) : (s.writeMem a v).run = s.run := rfl
@[simp] theorem writeMem_fault (s : State) (a v : Byte) : (s.writeMem a v).fault = s.fault := rfl
@[simp] theorem writeMem_out (s : State) (a v : Byte) : (s.writeMem a v).out = s.out := rfl

@[simp] theorem setPc_mem (s : State) (v : Byte) : (s.setPc v).mem = s.mem := rfl
@[simp] theorem setPc_regs (s : State) (v : Byte) : (s.setPc v).regs = s.regs := rfl
@[simp] theorem setPc_fl (s : State) (v : Byte) : (s.setPc v).fl = s.fl := rfl
@[simp] theorem setPc_pc (s : State) (v : Byte) : (s.setPc v).pc = v := rfl
@[simp] theorem setPc_run (s : State) (v : Byte) : (s.setPc v).run = s.run := rfl
@[simp] theorem setPc_fault (s : State) (v : Byte) : (s.setPc v).fault = s.fault := rfl
@[simp] theorem setPc_out (s : State) (v : Byte) : (s.setPc v).out = s.out := rfl

@[simp] theorem setFl_mem (s : State) (v : Byte) : (s.setFl v).mem = s.mem := rfl
@[simp] theorem setFl_regs (s : State) (v : Byte) : (s.setFl v).regs = s.regs := rfl
@[simp] theorem setFl_fl (s : State) (v : Byte) : (s.setFl v).fl = v := rfl
@[simp] theorem setFl_pc (s : State) (v : Byte) : (s.setFl v).pc = s.pc := rfl
@[simp] theorem setFl_run (s : State) (v : Byte) : (s.setFl v).run = s.run := rfl
@[simp] theorem setFl_fault (s : State) (v : Byte) : (s.setFl v).fault = s.fault := rfl
@[simp] theorem setFl_out (s : State) (v : Byte) : (s.setFl v).out = s.out := rfl

@[simp] theorem emit_mem (s : State) (v : Byte) : (s.emit v).mem = s.mem := rfl
@[simp] theorem emit_regs (s : State) (v : Byte) : (s.emit v).regs = s.regs := rfl
@[simp] theorem emit_fl (s : State) (v : Byte) : (s.emit v).fl = s.fl := rfl
@[simp] theorem emit_pc (s : State) (v : Byte) : (s.emit v).pc = s.pc := rfl
@[simp] theorem emit_run (s : State) (v : Byte) : (s.emit v).run = s.run := rfl
@[simp] theorem emit_fault (s : State) (v : Byte) : (s.emit v).fault = s.fault := rfl
@[simp] theorem emit_out (s : State) (v : Byte) : (s.emit v).out = s.out ++ [v] := rfl

@[simp] theorem stopRunning_mem (s : State) : (s.stopRunning).mem = s.mem := rfl
@[simp] theorem stopRunning_regs (s : State) : (s.stopRunning).regs = s.regs := rfl
@[simp] theorem stopRunning_fl (s : State) : (s.stopRunning).fl = s.fl := rfl
@[simp] theorem stopRunning_pc (s : State) : (s.stopRunning).pc = s.pc := rfl
@[simp] theorem stopRunning_run (s : State) : (s.stopRunning).run = false := rfl
@[simp] theorem stopRunning_fault (s : State) : (s.stopRunning).fault = s.fault := rfl
@[simp] theorem stopRunning_out (s : State) : (s.stopRunning).out = s.out := rfl

@[simp] theorem takeFault_mem (s : State) (f : FaultRecord) : (s.takeFault f).mem = s.mem := rfl
@[simp] theorem takeFault_regs (s : State) (f : FaultRecord) : (s.takeFault f).regs = s.regs := rfl
@[simp] theorem takeFault_fl (s : State) (f : FaultRecord) : (s.takeFault f).fl = s.fl := rfl
@[simp] theorem takeFault_pc (s : State) (f : FaultRecord) : (s.takeFault f).pc = s.pc := rfl
@[simp] theorem takeFault_run (s : State) (f : FaultRecord) : (s.takeFault f).run = s.run := rfl
@[simp] theorem takeFault_fault (s : State) (f : FaultRecord) : (s.takeFault f).fault = some f := rfl
@[simp] theorem takeFault_out (s : State) (f : FaultRecord) : (s.takeFault f).out = s.out := rfl

/-! ### Names that stand for another update -/

@[simp] theorem spIndex_eq : Config.spIndex = (7 : Reg) := rfl
@[simp] theorem sp_eq (s : State) : s.sp = s.reg 7 := rfl
@[simp] theorem setSp_eq (s : State) (v : Byte) : s.setSp v = s.setReg 7 v := rfl
@[simp] theorem decSp_eq (s : State) : s.decSp = s.setReg 7 (s.reg 7 - 1) := rfl
@[simp] theorem incSp_eq (s : State) : s.incSp = s.setReg 7 (s.reg 7 + 1) := rfl
@[simp] theorem advance_eq (s : State) (len : Nat) : s.advance len = s.setPc (s.pc + BitVec.ofNat 8 len) := rfl
@[simp] theorem regOperand_eq (s : State) (r : Reg) : regOperand s r = s.reg r := rfl
@[simp] theorem regPairOperands_eq (s : State) (rA rB : Reg) : regPairOperands s rA rB = (s.reg rA, s.reg rB) := rfl
@[simp] theorem immOperand_eq (imm : Byte) : immOperand imm = imm := rfl
@[simp] theorem stackOperand_eq (s : State) : stackOperand s = s.readMem (s.reg 7) := rfl
@[simp] theorem returnAddress_eq (s : State) : returnAddress s = s.pc + 2 := rfl
theorem flagE_eq (s : State) : s.flagE = s.fl.getLsbD 0 := rfl

/-! ### Reading a register after an update -/

@[simp] theorem reg_setReg_same (s : State) (r : Reg) (v : Byte) : (s.setReg r v).reg r = v := by
  simp [State.reg, State.setReg]

@[simp] theorem reg_setReg_other (s : State) (r q : Reg) (v : Byte) (h : q ≠ r) :
    (s.setReg r v).reg q = s.reg q := by
  have hne : r.val ≠ q.val := fun e => h (Fin.ext e.symm)
  simp [State.reg, State.setReg, hne]

/-- A register after a write: the written value in that register, the old value in every other. -/
theorem reg_setReg (s : State) (r q : Reg) (v : Byte) :
    (s.setReg r v).reg q = if q = r then v else s.reg q := by
  by_cases h : q = r
  · subst h; simp
  · simp [h]

@[simp] theorem reg_writeMem (s : State) (a v : Byte) (q : Reg) : (s.writeMem a v).reg q = s.reg q := rfl
@[simp] theorem reg_setPc (s : State) (v : Byte) (q : Reg) : (s.setPc v).reg q = s.reg q := rfl
@[simp] theorem reg_setFl (s : State) (v : Byte) (q : Reg) : (s.setFl v).reg q = s.reg q := rfl
@[simp] theorem reg_emit (s : State) (v : Byte) (q : Reg) : (s.emit v).reg q = s.reg q := rfl
@[simp] theorem reg_stopRunning (s : State) (q : Reg) : (s.stopRunning).reg q = s.reg q := rfl
@[simp] theorem reg_takeFault (s : State) (f : FaultRecord) (q : Reg) : (s.takeFault f).reg q = s.reg q := rfl

/-! ### Reading a cell after an update that is no store -/

@[simp] theorem readMem_setReg (s : State) (r : Reg) (v : Byte) (c : Byte) : (s.setReg r v).readMem c = s.readMem c := rfl
@[simp] theorem readMem_setPc (s : State) (v : Byte) (c : Byte) : (s.setPc v).readMem c = s.readMem c := rfl
@[simp] theorem readMem_setFl (s : State) (v : Byte) (c : Byte) : (s.setFl v).readMem c = s.readMem c := rfl
@[simp] theorem readMem_emit (s : State) (v : Byte) (c : Byte) : (s.emit v).readMem c = s.readMem c := rfl
@[simp] theorem readMem_stopRunning (s : State) (c : Byte) : (s.stopRunning).readMem c = s.readMem c := rfl
@[simp] theorem readMem_takeFault (s : State) (f : FaultRecord) (c : Byte) : (s.takeFault f).readMem c = s.readMem c := rfl

/-! ### The Equal flag after an update that does not write `FL` -/

@[simp] theorem flagE_setReg (s : State) (r : Reg) (v : Byte) : (s.setReg r v).flagE = s.flagE := rfl
@[simp] theorem flagE_writeMem (s : State) (a v : Byte) : (s.writeMem a v).flagE = s.flagE := rfl
@[simp] theorem flagE_setPc (s : State) (v : Byte) : (s.setPc v).flagE = s.flagE := rfl
@[simp] theorem flagE_emit (s : State) (v : Byte) : (s.emit v).flagE = s.flagE := rfl
@[simp] theorem flagE_stopRunning (s : State) : (s.stopRunning).flagE = s.flagE := rfl
@[simp] theorem flagE_takeFault (s : State) (f : FaultRecord) : (s.takeFault f).flagE = s.flagE := rfl

/-- Two states with the same registers, read one by one, hold the same register file. -/
theorem regs_ext {s u : State} (h : ∀ q : Reg, u.reg q = s.reg q) : u.regs = s.regs := by
  apply Vector.ext
  intro k hk
  exact h ⟨k, hk⟩

end Sys2Proof.Machine
end

