-- ==== Sys2Proof/Laws/Memory.lean ====
section
/-! SUPPORT. The laws of memory: a read after a write, the canonical form, and that a canonical memory is determined by
what it reads as. -/

namespace Sys2Proof.Machine

/-! ### Reading after a write (R31); no premise on the memory -/

theorem readAt_eraseAt (m : Memory) (k j : Nat) :
    (m.eraseAt k).readAt j = if j = k then Memory.unlisted else m.readAt j := by
  unfold Memory.eraseAt
  induction m with
  | nil => simp [Memory.readAt]
  | cons c rest ih =>
    by_cases hc : c.1 = k
    · have hb : (c.1 != k) = false := by simp [hc]
      rw [List.filter_cons_of_neg (by simp [hb]), ih]
      by_cases hj : j = k
      · simp [hj]
      · have : ¬ c.1 = j := fun e => hj (e.symm.trans hc)
        simp [Memory.readAt, hj, this]
    · rw [List.filter_cons_of_pos (by simpa using hc)]
      by_cases hj : c.1 = j
      · have : ¬ j = k := fun e => hc (hj.trans e)
        simp [Memory.readAt, hj, this]
      · simp [Memory.readAt, hj, ih]

theorem readAt_insertAt (m : Memory) (k j : Nat) (v : Byte) (hm : ∀ c ∈ m, c.1 ≠ k) :
    (m.insertAt k v).readAt j = if j = k then v else m.readAt j := by
  induction m with
  | nil =>
    by_cases hj : j = k
    · simp [Memory.insertAt, Memory.readAt, hj]
    · have : ¬ k = j := fun e => hj e.symm
      simp [Memory.insertAt, Memory.readAt, hj, this]
  | cons c rest ih =>
    have hc : c.1 ≠ k := hm c (by simp)
    have ih' := ih (fun d hd => hm d (by simp [hd]))
    by_cases hj : j = k
    · subst hj
      by_cases hlt : j < c.1
      · simp [Memory.insertAt, Memory.readAt, hlt]
      · simp [Memory.insertAt, Memory.readAt, hlt, hc, ih']
    · have hkj : ¬ k = j := fun e => hj e.symm
      by_cases hlt : k < c.1
      · simp [Memory.insertAt, Memory.readAt, hlt, hj, hkj]
      · simp [Memory.insertAt, Memory.readAt, hlt, hj, ih']

theorem eraseAt_keys (m : Memory) (k : Nat) : ∀ c ∈ m.eraseAt k, c.1 ≠ k := by
  intro c hc
  simpa using (List.mem_filter.mp hc).2

/-- A cell after a write: the written byte in that cell, the old byte in every other. -/
theorem read_write (m : Memory) (a b v : Byte) :
    (m.write a v).read b = if b = a then v else m.read b := by
  have hb : (b.toNat = a.toNat) ↔ b = a := BitVec.toNat_inj
  by_cases hv : v = Memory.unlisted
  · simp [Memory.write, Memory.read, hv, readAt_eraseAt, hb]
  · by_cases h : b = a <;>
      simp [Memory.write, Memory.read, hv, readAt_eraseAt, readAt_insertAt _ _ _ _ (eraseAt_keys m a.toNat), hb, h]

theorem readMem_writeMem (s : State) (a b v : Byte) :
    (s.writeMem a v).readMem b = if b = a then v else s.readMem b := read_write s.mem a b v

@[simp] theorem readMem_writeMem_same (s : State) (a v : Byte) : (s.writeMem a v).readMem a = v := by
  simp [readMem_writeMem]

@[simp] theorem readMem_writeMem_other (s : State) (a b v : Byte) (h : b ≠ a) :
    (s.writeMem a v).readMem b = s.readMem b := by
  simp [readMem_writeMem, h]

/-! ### The canonical form -/

/-- The canonical form as a proposition about the entries. -/
theorem wf_iff (m : Memory) :
    m.wf = true ↔ m.Pairwise (fun c d => c.1 < d.1) ∧ ∀ c ∈ m, c.1 < 256 ∧ c.2 ≠ Memory.unlisted := by
  unfold Memory.wf Config.memSize
  rw [Bool.and_eq_true, decide_eq_true_iff, List.all_eq_true]
  simp only [Bool.and_eq_true, decide_eq_true_iff]

theorem wf_eraseAt (m : Memory) (k : Nat) (h : m.wf = true) : (m.eraseAt k).wf = true := by
  rw [wf_iff] at h ⊢
  exact ⟨h.1.filter _, fun c hc => h.2 c (List.mem_filter.mp hc).1⟩

theorem mem_insertAt (m : Memory) (k : Nat) (v : Byte) (c : Host.Cell) :
    c ∈ m.insertAt k v ↔ c = (k, v) ∨ c ∈ m := by
  induction m with
  | nil => simp [Memory.insertAt]
  | cons d rest ih =>
    by_cases hlt : k < d.1
    · simp [Memory.insertAt, hlt]
    · simp only [Memory.insertAt, hlt, if_false, List.mem_cons, ih]
      tauto

theorem pairwise_insertAt (m : Memory) (k : Nat) (v : Byte) (h : m.Pairwise (fun c d => c.1 < d.1))
    (hk : ∀ c ∈ m, c.1 ≠ k) : (m.insertAt k v).Pairwise (fun c d => c.1 < d.1) := by
  induction m with
  | nil => simp [Memory.insertAt]
  | cons d rest ih =>
    rw [List.pairwise_cons] at h
    by_cases hlt : k < d.1
    · simp only [Memory.insertAt, hlt, if_true, List.pairwise_cons]
      refine ⟨?_, h⟩
      intro c hc
      rcases List.mem_cons.mp hc with rfl | hc
      · exact hlt
      · exact lt_trans hlt (h.1 c hc)
    · simp only [Memory.insertAt, hlt, if_false, List.pairwise_cons]
      refine ⟨?_, ih h.2 (fun c hc => hk c (by simp [hc]))⟩
      intro c hc
      rcases (mem_insertAt rest k v c).mp hc with rfl | hc
      · have := hk d (by simp)
        show d.1 < k
        omega
      · exact h.1 c hc

theorem wf_insertAt (m : Memory) (k : Nat) (v : Byte) (h : m.wf = true) (hm : ∀ c ∈ m, c.1 ≠ k)
    (hk : k < 256) (hv : v ≠ Memory.unlisted) : (m.insertAt k v).wf = true := by
  rw [wf_iff] at h ⊢
  refine ⟨pairwise_insertAt m k v h.1 hm, fun c hc => ?_⟩
  rcases (mem_insertAt m k v c).mp hc with rfl | hc
  · exact ⟨hk, hv⟩
  · exact h.2 c hc

/-- Every memory operation keeps the canonical form: a write is the only one that changes a memory. -/
theorem wf_write (m : Memory) (a v : Byte) (h : m.wf = true) : (m.write a v).wf = true := by
  have he := wf_eraseAt m a.toNat h
  by_cases hv : v = Memory.unlisted
  · simpa [Memory.write, hv] using he
  · simpa [Memory.write, hv] using wf_insertAt _ a.toNat v he (eraseAt_keys m a.toNat) a.isLt hv

theorem wf_writeMem (s : State) (a v : Byte) (h : s.mem.wf = true) : (s.writeMem a v).mem.wf = true :=
  wf_write s.mem a v h

theorem wf_writeBytes (s : State) (a : Byte) (bs : List Byte) (h : s.mem.wf = true) :
    (s.writeBytes a bs).mem.wf = true := by
  induction bs generalizing s a with
  | nil => simpa [State.writeBytes] using h
  | cons b rest ih => exact ih (s.writeMem a b) (a + 1) (wf_writeMem s a b h)

/-- Reset's memory has the canonical form. -/
theorem wf_reset : State.reset.mem.wf = true := by decide

/-- A cell number below every listed one reads as unlisted. -/
theorem readAt_of_forall_ne (m : Memory) (k : Nat) (h : ∀ c ∈ m, c.1 ≠ k) : m.readAt k = Memory.unlisted := by
  induction m with
  | nil => rfl
  | cons c rest ih =>
    have hc : c.1 ≠ k := h c (by simp)
    simp [Memory.readAt, hc, ih (fun d hd => h d (by simp [hd]))]

/-! ### Writing a list of bytes -/

/-- The fields other than memory after a list of bytes has been written. -/
theorem writeBytes_fields (s : State) (a : Byte) (bs : List Byte) :
    (s.writeBytes a bs).regs = s.regs ∧ (s.writeBytes a bs).fl = s.fl ∧ (s.writeBytes a bs).pc = s.pc ∧
      (s.writeBytes a bs).run = s.run ∧ (s.writeBytes a bs).fault = s.fault ∧ (s.writeBytes a bs).out = s.out := by
  induction bs generalizing s a with
  | nil => simp [State.writeBytes]
  | cons b rest ih => simpa [State.writeBytes] using ih (s.writeMem a b) (a + 1)

/-- A cell the list does not reach keeps its byte. -/
theorem readMem_writeBytes_other (s : State) (a c : Byte) (bs : List Byte)
    (h : ∀ k < bs.length, c ≠ a + BitVec.ofNat 8 k) : (s.writeBytes a bs).readMem c = s.readMem c := by
  induction bs generalizing s a with
  | nil => rfl
  | cons b rest ih =>
    have h0 : c ≠ a := by simpa using h 0 (by simp)
    have hr : ∀ k < rest.length, c ≠ a + 1 + BitVec.ofNat 8 k := by
      intro k hk
      have := h (k + 1) (by simpa using hk)
      rwa [BitVec.ofNat_add, add_comm (BitVec.ofNat 8 k), ← add_assoc] at this
    rw [State.writeBytes, ih (s.writeMem a b) (a + 1) hr, readMem_writeMem_other _ _ _ _ h0]

end Sys2Proof.Machine
end

