-- ==== Sys2Proof/Laws/Exec.lean ====
section
/-! SUPPORT. One lemma per instruction: the state it answers, over the updates whose lemmas are in Laws/State.lean. A proof
about an instruction cites its lemma here and never unfolds the meaning. -/

namespace Sys2Proof.Machine

@[simp] theorem exec_ldi (r : Reg) (imm : Byte) (s : State) :
    exec (.ldi r imm) s = .next ((s.setReg r imm).setPc (s.pc + 3)) := rfl

@[simp] theorem exec_prn (r : Reg) (s : State) :
    exec (.prn r) s = .next ((s.emit (s.reg r)).setPc (s.pc + 2)) := rfl

@[simp] theorem exec_mul (rA rB : Reg) (s : State) :
    exec (.mul rA rB) s = .next ((s.setReg rA (s.reg rA * s.reg rB)).setPc (s.pc + 3)) := rfl

@[simp] theorem exec_add (rA rB : Reg) (s : State) :
    exec (.add rA rB) s = .next ((s.setReg rA (s.reg rA + s.reg rB)).setPc (s.pc + 3)) := rfl

@[simp] theorem exec_cmp (rA rB : Reg) (s : State) :
    exec (.cmp rA rB) s =
      .next ((s.setFl (if s.reg rA = s.reg rB then s.fl ||| 1 else s.fl)).setPc (s.pc + 3)) := by
  by_cases h : s.reg rA = s.reg rB <;> simp [exec, execCmp, cmpFlags, aluEq, setEqualBit, h]

@[simp] theorem exec_push (r : Reg) (s : State) :
    exec (.push r) s =
      .next (((s.setReg 7 (s.reg 7 - 1)).writeMem (s.reg 7 - 1)
        (if r = 7 then s.reg 7 - 1 else s.reg r)).setPc (s.pc + 2)) := by
  simp [exec, execPush, reg_setReg]

@[simp] theorem exec_pop (r : Reg) (s : State) :
    exec (.pop r) s =
      .next (((s.setReg r (s.readMem (s.reg 7))).setReg 7
        ((if r = 7 then s.readMem (s.reg 7) else s.reg 7) + 1)).setPc (s.pc + 2)) := by
  by_cases h : r = 7
  · subst h; simp [exec, execPop]
  · have h' : ¬ (7 : Reg) = r := fun e => h e.symm
    simp [exec, execPop, h, h']

@[simp] theorem exec_call (r : Reg) (s : State) :
    exec (.call r) s =
      .next (((s.setReg 7 (s.reg 7 - 1)).writeMem (s.reg 7 - 1) (s.pc + 2)).setPc
        (if r = 7 then s.reg 7 - 1 else s.reg r)) := by
  simp [exec, execCall, reg_setReg]

@[simp] theorem exec_ret (s : State) :
    exec .ret s = .next ((s.setReg 7 (s.reg 7 + 1)).setPc (s.readMem (s.reg 7))) := rfl

@[simp] theorem exec_jmp (r : Reg) (s : State) : exec (.jmp r) s = .next (s.setPc (s.reg r)) := rfl

@[simp] theorem exec_jeq (r : Reg) (s : State) :
    exec (.jeq r) s = .next (s.setPc (if s.flagE then s.reg r else s.pc + 2)) := by
  cases h : s.flagE <;> simp [exec, execJeq, branchIf, h]

@[simp] theorem exec_jne (r : Reg) (s : State) :
    exec (.jne r) s = .next (s.setPc (if s.flagE then s.pc + 2 else s.reg r)) := by
  cases h : s.flagE <;> simp [exec, execJne, branchIf, h]

@[simp] theorem exec_hlt (s : State) : exec .hlt s = .next (s.stopRunning.setPc (s.pc + 1)) := rfl

/-- Every instruction completes, in every state and with every operand. -/
theorem exec_answers_next (i : Instr) (s : State) : ∃ u, exec i s = .next u := by
  cases i <;> simp

end Sys2Proof.Machine
end

