-- ==== Sys2Proof/Laws/PerInstr.lean ====
section
/-! SUPPORT. The per-instruction family EncodedForm (LAWS.json): the encoded form of an instruction under any opcode table
is its row's opcode byte followed by operand bytes, and is as long as the row says (30_encoding.md R45, R46). -/

namespace Sys2Proof.Laws.EncodedForm

def Statement (i : Instr) : Prop :=
  ∀ t : OpcodeTable, (encode t i).head? = some (t i.mnemonic) ∧ (encode t i).length = i.mnemonic.length

theorem ldi (r : Reg) (imm : Byte) : Statement (.ldi r imm) := fun _ => ⟨rfl, rfl⟩
theorem prn (r : Reg) : Statement (.prn r) := fun _ => ⟨rfl, rfl⟩
theorem mul (rA rB : Reg) : Statement (.mul rA rB) := fun _ => ⟨rfl, rfl⟩
theorem add (rA rB : Reg) : Statement (.add rA rB) := fun _ => ⟨rfl, rfl⟩
theorem cmp (rA rB : Reg) : Statement (.cmp rA rB) := fun _ => ⟨rfl, rfl⟩
theorem push (r : Reg) : Statement (.push r) := fun _ => ⟨rfl, rfl⟩
theorem pop (r : Reg) : Statement (.pop r) := fun _ => ⟨rfl, rfl⟩
theorem call (r : Reg) : Statement (.call r) := fun _ => ⟨rfl, rfl⟩
theorem ret : Statement .ret := fun _ => ⟨rfl, rfl⟩
theorem jmp (r : Reg) : Statement (.jmp r) := fun _ => ⟨rfl, rfl⟩
theorem jeq (r : Reg) : Statement (.jeq r) := fun _ => ⟨rfl, rfl⟩
theorem jne (r : Reg) : Statement (.jne r) := fun _ => ⟨rfl, rfl⟩
theorem hlt : Statement .hlt := fun _ => ⟨rfl, rfl⟩

end Sys2Proof.Laws.EncodedForm
end

