-- ==== Sys2Proof/Laws/Step.lean ====
section
/-! SUPPORT. What a step can do, said once: when the core is stopped, and the two ways a step of a running core goes. -/

namespace Sys2Proof.Machine

theorem stopReason_eq_none (s : State) : stopReason s = none ↔ Running s := by
  cases hf : s.fault <;> cases hr : s.run <;> simp [stopReason, Running, hf, hr]

theorem stepWith_of_stopped {t : OpcodeTable} {s : State} {why : Fault} (h : stopReason s = some why) :
    stepWith t s = .fault why := by simp [stepWith, h]

theorem stepWith_of_ok {t : OpcodeTable} {s : State} {i : Instr} (h : Running s) (hd : decodeAtPc t s = .ok i) :
    stepWith t s = exec i s := by simp [stepWith, (stopReason_eq_none s).mpr h, hd]

theorem stepWith_of_error {t : OpcodeTable} {s : State} {e : Illegal} (h : Running s)
    (hd : decodeAtPc t s = .error e) : stepWith t s = .next (s.takeFault (illegalRecord e s.pc)) := by
  simp [stepWith, (stopReason_eq_none s).mpr h, hd]

/-- Everything a step that goes on can do (R60): the core was running, and the step either took the fault the decoder
found, changing the latch alone, or executed the decoded instruction. -/
theorem stepWith_next {t : OpcodeTable} {s u : State} (h : stepWith t s = .next u) :
    Running s ∧
      ((∃ e, decodeAtPc t s = .error e ∧ u = s.takeFault (illegalRecord e s.pc)) ∨
        (∃ i, decodeAtPc t s = .ok i ∧ exec i s = .next u)) := by
  cases hs : stopReason s with
  | some why => simp [stepWith, hs] at h
  | none =>
    refine ⟨(stopReason_eq_none s).mp hs, ?_⟩
    cases hd : decodeAtPc t s with
    | error e => left; refine ⟨e, rfl, ?_⟩; simpa [stepWith, hs, hd, eq_comm] using h
    | ok i => right; exact ⟨i, rfl, by simpa [stepWith, hs, hd] using h⟩

/-- The decoder looks at memory and `pc` alone. -/
theorem decodeAtPc_congr {t : OpcodeTable} {s u : State} (hm : ∀ a, u.readMem a = s.readMem a) (hp : u.pc = s.pc) :
    decodeAtPc t u = decodeAtPc t s := by simp [decodeAtPc, hm, hp]

/-- Decoding at `pc` where the opcode byte is a row's and the operands are legal. -/
theorem decodeAtPc_of_row {t : OpcodeTable} {s : State} (ht : t.wellFormed = true) {m : Mnemonic} {i : Instr}
    (h : s.readMem s.pc = t m)
    (ho : decodeOperands m (s.readMem (s.pc + 1)) (s.readMem (s.pc + 2)) = .ok i) : decodeAtPc t s = .ok i :=
  decodeBytes_eq_ok.mpr ⟨m, by rw [h, lookup_byte ht], ho⟩

/-- Decoding at `pc` where the opcode byte is a row's and a register operand is illegal. -/
theorem decodeAtPc_of_row_error {t : OpcodeTable} {s : State} (ht : t.wellFormed = true) {m : Mnemonic} {b : Byte}
    (h : s.readMem s.pc = t m)
    (ho : decodeOperands m (s.readMem (s.pc + 1)) (s.readMem (s.pc + 2)) = .error b) :
    decodeAtPc t s = .error (.invalidRegisterIndex (t m) b) :=
  decodeBytes_eq_invalid.mpr ⟨h.symm, m, by rw [h, lookup_byte ht], ho⟩

end Sys2Proof.Machine
end

