-- ==== Sys2Proof/Laws/Transactions.lean ====
section
/-! SUPPORT. What the host's transactions answer: Load (50_interfaces.md R92, R98), Run and a bounded run (R93), what a move of
the lifecycle can do (R90), and how the reach of steps composes. -/

namespace Sys2Proof.Machine

/-! ### Load -/

/-- A cell the list reaches holds its byte, for a list that does not wrap onto itself. -/
theorem readMem_writeBytes_at (s : State) (a : Byte) (bs : List Byte) (hl : bs.length ≤ 256) (k : Nat)
    (hk : k < bs.length) : (s.writeBytes a bs).readMem (a + BitVec.ofNat 8 k) = bs[k] := by
  induction bs generalizing s a k with
  | nil => simp at hk
  | cons b rest ih =>
    have hr : rest.length < 256 := by simpa using hl
    cases k with
    | zero =>
      have hne : ∀ j < rest.length, a ≠ a + 1 + BitVec.ofNat 8 j := by
        intro j hj e
        have := congrArg BitVec.toNat e
        simp [BitVec.toNat_add] at this
        omega
      simpa [State.writeBytes] using readMem_writeBytes_other (s.writeMem a b) (a + 1) a rest hne
    | succ j =>
      have hj : j < rest.length := by simpa using hk
      have e : a + BitVec.ofNat 8 (j + 1) = a + 1 + BitVec.ofNat 8 j := by
        rw [BitVec.ofNat_add, add_comm (BitVec.ofNat 8 j), ← add_assoc]
        rfl
      rw [e]
      simpa [State.writeBytes] using ih (s.writeMem a b) (a + 1) (by omega) j hj

theorem imageWellFormed_iff (image : List Byte) : imageWellFormed image = true ↔ image.length ≤ 256 := by
  unfold imageWellFormed Config.memSize
  exact decide_eq_true_iff

/-- Everything a Load that succeeds can do: the image fitted, the machine stood directly after Reset, and the image was
written from address 0. -/
theorem load_ok {image : List Byte} {h h' : Session} (e : load image h = .ok h') :
    image.length ≤ 256 ∧ h = .afterReset ∧ h' = .loaded (State.reset.writeBytes 0#8 image) := by
  unfold load at e
  by_cases hi : imageWellFormed image = false
  · simp [hi] at e
  · have hi' : imageWellFormed image = true := by simpa using hi
    cases h <;> simp [hi', Config.loadBase] at e
    exact ⟨(imageWellFormed_iff image).mp hi', rfl, e.symm⟩

theorem load_afterReset {image : List Byte} (h : image.length ≤ 256) :
    load image .afterReset = .ok (.loaded (State.reset.writeBytes 0#8 image)) := by
  simp [load, (imageWellFormed_iff image).mpr h, Config.loadBase]

theorem load_too_long {image : List Byte} (s : Session) (h : 256 < image.length) :
    load image s = .error (.loadOverflow image.length) := by
  have : imageWellFormed image = false := by
    simpa [Bool.eq_false_iff, imageWellFormed_iff] using h
  simp [load, this]

theorem load_not_afterReset {image : List Byte} {s : Session} (h : image.length ≤ 256) (hs : s ≠ .afterReset) :
    load image s = .error .loadNotAfterReset := by
  cases s <;> simp_all [load, (imageWellFormed_iff image).mpr h]

/-! ### Moves of a machine -/

/-- Everything a Run that is not refused can do: it starts from the state after Reset or after the Load that followed, or it
returns at once from a stopped core. -/
theorem runFrom_ok {h : Session} {s : State} (e : runFrom h = .ok s) :
    (h = .afterReset ∧ s = State.reset) ∨ h = .loaded s ∨ (h = .started s ∧ ¬ Running s) := by
  cases h with
  | started v =>
    cases hs : stopReason v with
    | none => simp [runFrom, hs] at e
    | some why =>
      obtain rfl : v = s := by simpa [runFrom, hs] using e
      exact .inr (.inr ⟨rfl, fun hr => by simp [(stopReason_eq_none v).mpr hr] at hs⟩)
  | needsReset | afterReset | loaded => simp_all [runFrom]

theorem runFrom_of_stopped {s : State} (h : ¬ Running s) : runFrom (.started s) = .ok s := by
  cases hs : stopReason s with
  | none => exact absurd ((stopReason_eq_none s).mp hs) h
  | some why => simp [runFrom, hs]

theorem runFrom_of_running {s : State} (h : Running s) : runFrom (.started s) = .error .runWhileRunning := by
  simp [runFrom, (stopReason_eq_none s).mpr h]

@[simp] theorem moves_nil (t : OpcodeTable) (h : Session) : Session.moves t [] h = h := rfl
@[simp] theorem moves_cons (t : OpcodeTable) (m : Move) (ms : List Move) (h : Session) :
    Session.moves t (m :: ms) h = Session.moves t ms (h.move t m) := rfl

/-- Everything a move can do. -/
theorem move_cases (t : OpcodeTable) (m : Move) (h : Session) :
    (m = .reset ∧ h.move t m = .afterReset) ∨
    (∃ image, m = .load image ∧ image.length ≤ 256 ∧ h = .afterReset ∧
      h.move t m = .loaded (State.reset.writeBytes 0#8 image)) ∨
    (m = .run ∧ h = .afterReset ∧ h.move t m = .started State.reset) ∨
    (∃ s, m = .run ∧ h = .loaded s ∧ h.move t m = .started s) ∨
    (∃ s u, m = .coreStep ∧ h = .started s ∧ stepWith t s = .next u ∧ h.move t m = .started u) ∨
    (∃ s, m = .run ∧ h = .started s ∧ ¬ Running s ∧ h.move t m = h) ∨
    (m = .coreStep ∧ h.move t m = h) ∨
    (m ≠ .reset ∧ h.move t m = .needsReset) := by
  cases m with
  | reset => simp [Session.move]
  | load image =>
    cases e : load image h with
    | error why => simp [Session.move, e]
    | ok h' =>
      obtain ⟨hl, rfl, rfl⟩ := load_ok e
      simp [Session.move, e, hl]
  | run =>
    cases e : runFrom h with
    | error why => simp [Session.move, e]
    | ok s => obtain ⟨rfl, rfl⟩ | rfl | ⟨rfl, hs⟩ := runFrom_ok e <;> simp_all [Session.move]
  | coreStep =>
    cases h with
    | started s => cases e : stepWith t s <;> simp [Session.move, e]
    | needsReset | afterReset | loaded => simp [Session.move]

/-- A property that every move but Reset keeps holds until the next Reset. -/
theorem moves_induct_kept {t : OpcodeTable} {P : Session → Prop}
    (kept : ∀ m h, m ≠ .reset → P h → P (h.move t m)) {ms : List Move} (hr : .reset ∉ ms) {h : Session} (hp : P h) :
    P (Session.moves t ms h) := by
  induction ms generalizing h with
  | nil => exact hp
  | cons m ms ih =>
    simp only [List.mem_cons, not_or] at hr
    exact ih hr.2 (kept m h (Ne.symm hr.1) hp)

/-! ### The boot sequence -/

/-- Everything a boot sequence that starts a run can do. -/
theorem launch_ok {image : List Byte} {s : State} (e : launch image = .ok s) :
    image.length ≤ 256 ∧ s = State.reset.writeBytes 0#8 image := by
  unfold launch at e
  cases el : load image .afterReset with
  | error why => simp [el, Except.bind] at e
  | ok h =>
    obtain ⟨hl, -, rfl⟩ := load_ok el
    simp [el, Except.bind, runFrom] at e
    exact ⟨hl, e.symm⟩

theorem launch_of_le {image : List Byte} (h : image.length ≤ 256) :
    launch image = .ok (State.reset.writeBytes 0#8 image) := by
  simp [launch, load_afterReset h, Except.bind, runFrom]

theorem launch_too_long {image : List Byte} (h : 256 < image.length) :
    launch image = .error (.loadOverflow image.length) := by
  simp [launch, load_too_long .afterReset h, Except.bind]

/-- A boot whose Load succeeds is the run from the loaded state; one whose Load fails is no run. -/
theorem boot_loaded {t : OpcodeTable} {image : List Byte} (h : image.length ≤ 256) (n : Nat) :
    boot t image n = runWith t n (State.reset.writeBytes 0#8 image) := by simp [boot, launch_of_le h]

theorem boot_too_long {t : OpcodeTable} {image : List Byte} (h : 256 < image.length) (n : Nat) :
    boot t image n = .notLaunched (.loadOverflow image.length) := by simp [boot, launch_too_long h]

/-! ### Runs -/

theorem Reaches.trans {t : OpcodeTable} {s u v : State} (h : Reaches t s u) (g : Reaches t u v) : Reaches t s v := by
  induction g with
  | here => exact h
  | step w x _ hx ih => exact .step _ w x ih hx

/-- A property that every step keeps holds of everything reached: each claim about runs is then a claim about one step. -/
theorem Reaches.induct_kept {t : OpcodeTable} {P : State → Prop}
    (kept : ∀ s u, P s → stepWith t s = .next u → P u) {s u : State} (h : Reaches t s u) (hs : P s) : P u := by
  induction h with
  | here => exact hs
  | step v w _ hw ih => exact kept v w ih hw

theorem runWith_of_stopped {t : OpcodeTable} {s : State} {why : Fault} (h : stopReason s = some why) (n : Nat) :
    runWith t n s = .stopped why s := by
  cases n with
  | zero => simp [runWith, h]
  | succ n => simp [runWith, stepWith_of_stopped h]

theorem runWith_of_step {t : OpcodeTable} {s u : State} (h : stepWith t s = .next u) (n : Nat) :
    runWith t (n + 1) s = runWith t n u := by simp [runWith, h]

end Sys2Proof.Machine
end

