-- ==== Sys2Proof/Tests/Slice0.lean ====
section
/-! SUPPORT. The model's own tests: the WellFormed smoke, every constructor's decoding from words written out by hand, one
step of each instruction from the vectors of 95_test_vectors.md, and for each statement with hypotheses a named
witness that meets them. Expected results are the spec's tables' (V numbers) or hand calculation from the rules. -/

namespace Sys2Proof.Tests

open Sys2Proof Sys2Proof.Machine

/-- The reset state with some bytes from an address on, and `pc` there. -/
def codeAt (pc : Byte) (bs : List Byte) : State := (State.reset.writeBytes pc bs).setPc pc

/-- What a reader sees in the state an outcome goes on to. -/
def after {α : Type} (o : Host.Outcome State Fault Refusal) (f : State → α) : Option α :=
  match o with
  | .next s => some (f s)
  | .fault _ => none
  | .refused _ => none

/-- Why an outcome is no next state, when it is a fault. -/
def stopOf (o : Host.Outcome State Fault Refusal) : Option Fault :=
  match o with
  | .next _ => none
  | .fault why => some why
  | .refused _ => none

/-! ### WellFormed smoke: an ill-formed term for each check -/

theorem test_wf_refuses_b1_above_7 : operandsWellFormed .ldi 8 0 = false := by decide
theorem test_wf_refuses_b2_above_7 : operandsWellFormed .mul 7 8 = false := by decide
theorem test_wf_takes_any_immediate : operandsWellFormed .ldi 7 255 = true := by decide
theorem test_wf_refuses_table_with_a_byte_twice :
    OpcodeTable.wellFormed (fun m => if m = .mul then 0xA0 else OPC m) = false := by decide
theorem test_wf_refuses_image_of_257 (image : List Byte) (h : image.length = 257) : imageWellFormed image = false := by
  have : ¬ imageWellFormed image = true := fun e => by have := (imageWellFormed_iff image).mp e; omega
  simpa using this
theorem test_wf_takes_image_of_256 (image : List Byte) (h : image.length = 256) : imageWellFormed image = true :=
  (imageWellFormed_iff image).mpr h.le
theorem test_wf_memory_refuses_unsorted : Memory.wf [(2, 1), (1, 1)] = false := by decide
theorem test_wf_memory_refuses_zero_entry : Memory.wf [(1, 0)] = false := by decide
theorem test_wf_memory_refuses_cell_256 : Memory.wf [(256, 1)] = false := by decide

/-! ### Decoding, each word written out from the binary column of R51 and the formats of R46 -/

theorem test_decode_ldi : decode OPC [0b10000010#8, 0b00000011#8, 0b11111111#8] = .ok (.ldi 3 255, []) := by decide
theorem test_decode_prn : decode OPC [0b01000111#8, 0b00000111#8] = .ok (.prn 7, []) := by decide
theorem test_decode_mul : decode OPC [0b10100010#8, 0b00000001#8, 0b00000110#8] = .ok (.mul 1 6, []) := by decide
theorem test_decode_add : decode OPC [0b10100000#8, 0b00000100#8, 0b00000010#8] = .ok (.add 4 2, []) := by decide
theorem test_decode_cmp : decode OPC [0b10100111#8, 0b00000000#8, 0b00000101#8] = .ok (.cmp 0 5, []) := by decide
theorem test_decode_push : decode OPC [0b01000101#8, 0b00000101#8] = .ok (.push 5, []) := by decide
theorem test_decode_pop : decode OPC [0b01000110#8, 0b00000010#8] = .ok (.pop 2, []) := by decide
theorem test_decode_call : decode OPC [0b01010000#8, 0b00000001#8] = .ok (.call 1, []) := by decide
theorem test_decode_ret : decode OPC [0b00010001#8, 0b10000010#8] = .ok (.ret, [0x82]) := by decide
theorem test_decode_jmp : decode OPC [0b01010100#8, 0b00000011#8] = .ok (.jmp 3, []) := by decide
theorem test_decode_jeq : decode OPC [0b01010101#8, 0b00000010#8] = .ok (.jeq 2, []) := by decide
theorem test_decode_jne : decode OPC [0b01010110#8, 0b00000110#8] = .ok (.jne 6, []) := by decide
theorem test_decode_hlt : decode OPC [0b00000001#8, 0b00000000#8] = .ok (.hlt, [0]) := by decide

/-- The bytes next to the opcodes that 95_test_vectors.md section 2.5 lists as faulting. -/
theorem test_decode_refuses_neighbours :
    ∀ b ∈ [0x00#8, 0x02#8, 0x10#8, 0x12#8, 0x44#8, 0x48#8, 0x4F#8, 0x51#8, 0x53#8, 0x57#8, 0x81#8, 0x83#8, 0x9F#8,
      0xA1#8, 0xA3#8, 0xA6#8, 0xA8#8], decodeBytes OPC b 0 0 = .error (.unsupportedOpcode b) := by decide

/-- V26: of two bad register operands the first is reported. -/
theorem test_decode_reports_b1_first :
    decodeBytes OPC 0xA0 0x0A 0x0B = .error (.invalidRegisterIndex 0xA0 0x0A) := by decide

theorem test_decode_truncated : decode OPC [0x82, 0x00] = .error .truncated := by decide
theorem test_table_word_ldi : decodeTableWord 24 0x080082 = some (.ldi 0 8) := by decide
theorem test_table_word_short : decodeTableWord 8 0xFFA0 = some (.add 0 0) := by decide

/-! ### One step of each instruction -/

/-- V1. -/
theorem test_ldi : after (step (codeAt 0 [0x82, 0x00, 0x08])) (fun s => (s.reg 0, s.reg 7, s.pc)) = some (8, 255, 3) := by
  decide
/-- V6: operands from 255 and 0, continuing at 1. -/
theorem test_ldi_wraps : after (step (codeAt 254 [0x82, 0x01, 0x2A])) (fun s => (s.reg 1, s.pc)) = some (42, 1) := by
  decide
/-- V10: PRN R7 prints the reset SP. -/
theorem test_prn : after (step (codeAt 0 [0x47, 0x07])) (fun s => (s.out, s.pc)) = some ([255], 2) := by decide
/-- The second byte is appended after the first (R20 "oldest first"). -/
theorem test_prn_appends : after (step ((codeAt 0 [0x47, 0x00]).emit 72)) (fun s => s.out) = some [72, 0] := by decide
/-- V13. -/
theorem test_mul : after (step (((codeAt 0 [0xA2, 0x00, 0x01]).setReg 0 8).setReg 1 9))
    (fun s => (s.reg 0, s.reg 1, s.pc)) = some (72, 9, 3) := by decide
/-- V15: 255 * 255 keeps the low byte. -/
theorem test_mul_wraps : after (step (((codeAt 0 [0xA2, 0x00, 0x01]).setReg 0 255).setReg 1 255))
    (fun s => (s.reg 0, s.fl)) = some (1, 0) := by decide
/-- R74's example: 200 + 100 is 44. -/
theorem test_add_wraps : after (step (((codeAt 0 [0xA0, 0x00, 0x01]).setReg 0 200).setReg 1 100))
    (fun s => (s.reg 0, s.reg 1, s.fl)) = some (44, 100, 0) := by decide
/-- V23: source and destination the same register. -/
theorem test_add_same_register : after (step ((codeAt 0 [0xA0, 0x04, 0x04]).setReg 4 128))
    (fun s => (s.reg 4, s.pc)) = some (0, 3) := by decide
/-- V27. -/
theorem test_cmp_equal : after (step (((codeAt 0 [0xA7, 0x00, 0x01]).setReg 0 5).setReg 1 5))
    (fun s => (s.fl, s.pc)) = some (1, 3) := by decide
/-- V29: the sticky case. -/
theorem test_cmp_unequal_keeps_equal : after (step (((codeAt 0 [0xA7, 0x00, 0x01]).setReg 0 5).setFl 1))
    (fun s => s.fl) = some 1 := by decide
/-- V35: PUSH R7 stores the decremented SP. -/
theorem test_push_sp : after (step (codeAt 0 [0x45, 0x07])) (fun s => (s.reg 7, s.readMem 254, s.readMem 255, s.pc)) =
    some (254, 254, 0, 2) := by decide
/-- V36: SP wraps from 0 to 255. -/
theorem test_push_wraps : after (step (((codeAt 16 [0x45, 0x01]).setReg 7 0).setReg 1 7))
    (fun s => (s.reg 7, s.readMem 255, s.pc)) = some (255, 7, 18) := by decide
/-- V37: the popped cell keeps its byte. -/
theorem test_pop : after (step (((codeAt 0 [0x46, 0x01]).setReg 7 254).writeMem 254 42))
    (fun s => (s.reg 1, s.reg 7, s.readMem 254, s.pc)) = some (42, 255, 42, 2) := by decide
/-- V39: POP R7 ends with the popped byte plus one. -/
theorem test_pop_sp : after (step (((codeAt 0 [0x46, 0x07]).setReg 7 200).writeMem 200 100)) (fun s => s.reg 7) =
    some 101 := by decide
/-- V41: the return address wraps and overwrites the CALL's own opcode. -/
theorem test_call_wraps : after (step ((codeAt 254 [0x50, 0x00]).setReg 0 32))
    (fun s => (s.reg 7, s.readMem 254, s.pc)) = some (254, 0, 32) := by decide
/-- V42: CALL R7 reads its target after the decrement. -/
theorem test_call_sp : after (step (codeAt 10 [0x50, 0x07])) (fun s => (s.reg 7, s.readMem 254, s.pc)) =
    some (254, 12, 254) := by decide
/-- V43. -/
theorem test_ret : after (step (((codeAt 19 [0x11]).setReg 7 254).writeMem 254 7))
    (fun s => (s.pc, s.reg 7, s.readMem 254)) = some (7, 255, 7) := by decide
/-- V44: RET on the empty stack. -/
theorem test_ret_empty_stack : after (step (codeAt 0 [0x11])) (fun s => (s.pc, s.reg 7)) = some (0, 0) := by decide
/-- V45. -/
theorem test_jmp : after (step ((codeAt 26 [0x54, 0x03]).setReg 3 15)) (fun s => (s.pc, s.reg 3)) = some (15, 15) := by
  decide
/-- V47: taken, and the flag is not consumed. -/
theorem test_jeq_taken : after (step (((codeAt 12 [0x55, 0x02]).setReg 2 32).setFl 1)) (fun s => (s.pc, s.fl)) =
    some (32, 1) := by decide
/-- V52: not taken, with the wrap. -/
theorem test_jeq_not_taken_wraps : after (step (codeAt 255 [0x55, 0x01])) (fun s => s.pc) = some 1 := by decide
/-- V49. -/
theorem test_jne_taken : after (step ((codeAt 12 [0x56, 0x02]).setReg 2 32)) (fun s => s.pc) = some 32 := by decide
/-- V50. -/
theorem test_jne_not_taken : after (step (((codeAt 12 [0x56, 0x02]).setReg 2 32).setFl 1)) (fun s => s.pc) = some 14 := by
  decide
/-- V53. -/
theorem test_hlt : after (step (codeAt 0 [0x01])) (fun s => (s.run, s.pc, s.fault)) = some (false, 1, none) := by decide
/-- V54. -/
theorem test_hlt_wraps : after (step (codeAt 255 [0x01])) (fun s => (s.run, s.pc)) = some (false, 0) := by decide

/-! ### Faults, stopped cores and the host's transactions -/

/-- V56. -/
theorem test_unsupported_opcode : step (codeAt 7 [0xFF]) = .next { codeAt 7 [0xFF] with fault := some (.unsupportedOpcode 0xFF 7) } := by
  rfl
/-- V51: a bad register operand faults although the branch is not taken. -/
theorem test_invalid_register_not_taken : after (step (codeAt 0 [0x55, 0x09])) (fun s => (s.fault, s.pc, s.run)) =
    some (some (.invalidRegisterIndex 0x55 0x09 0), 0, true) := by decide
/-- V57. -/
theorem test_halted_core_takes_no_step : stopOf (step (codeAt 0 [0x82, 0, 0]).stopRunning) = some .coreHalted := by decide
/-- V58. -/
theorem test_faulted_core_takes_no_step :
    stopOf (step ((codeAt 0 [0x82, 0, 0]).takeFault (.unsupportedOpcode 0 0))) =
      some (.coreFaulted (.unsupportedOpcode 0 0)) := by decide
/-- V59. -/
theorem test_load_of_257_fails (image : List Byte) (h : image.length = 257) :
    load image .afterReset = .error (.loadOverflow 257) := by
  rw [load_too_long .afterReset (by omega), h]
/-- V60, at the last of the 256 cells. -/
theorem test_load_of_256 (image : List Byte) (h : image.length = 256) :
    ∃ u, load image .afterReset = .ok (.loaded u) ∧ u.readMem 255 = image[255] :=
  ⟨_, load_afterReset h.le, readMem_writeBytes_at State.reset 0 image h.le 255 (by omega)⟩
/-- R92: the image stands at address 0 in order, and the next cell keeps its 0. -/
theorem test_load_order : (launch [0x82, 0x01, 0x2A]).toOption.map
    (fun s => (s.readMem 0, s.readMem 1, s.readMem 2, s.readMem 3, s.pc)) = some (0x82, 0x01, 0x2A, 0, 0) := by decide
/-- D10, S9: a second Load is refused, after an image of zeros and after an empty one too. -/
theorem test_second_load_refused : ∀ image ∈ [[], [0x00#8], [0x01#8]],
    (load image .afterReset).bind (load [0x01]) = .error .loadNotAfterReset := by decide
/-- S9: Load after Run, Run without Reset; R94: Run of a running core. -/
theorem test_out_of_lifecycle : load [] (Session.moves OPC [.reset, .run] .needsReset) = .error .loadNotAfterReset ∧
    runFrom (Session.moves OPC [.reset, .run] .needsReset) = .error .runWhileRunning ∧
    runFrom .needsReset = .error .runNotAfterReset := ⟨rfl, rfl, rfl⟩
/-- R68: Run of a halted machine returns at once; D14: so of a faulted one. -/
theorem test_run_of_stopped_returns :
    Session.moves OPC [.run] (.started (codeAt 0 [0x01]).stopRunning) = .started (codeAt 0 [0x01]).stopRunning ∧
    Session.moves OPC [.reset, .run, .coreStep, .run] .needsReset =
      .started (State.reset.takeFault (.unsupportedOpcode 0 0)) := ⟨rfl, rfl⟩
/-- R121, R98: the boot sequence with an image of 257 bytes takes no step. -/
theorem test_boot_of_257_launches_nothing (image : List Byte) (h : image.length = 257) :
    boot OPC image 5 = .notLaunched (.loadOverflow 257) := by
  rw [boot_too_long (by omega), h]
/-- R95: the value 72 is shown as the numeral 72 and one terminator. -/
theorem test_rendered_line : renderedLines "." (State.reset.emit 72) = ["72."] := by decide
/-- R97, R100: the fault port's kind numbers. -/
theorem test_fault_kinds : (FaultRecord.unsupportedOpcode 0 0).kind = 0 ∧ (FaultRecord.invalidRegisterIndex 0 8 0).kind = 1 := by
  decide
/-- R97: what the fault port shows of a record. -/
theorem test_fault_port : (FaultRecord.invalidRegisterIndex 0x55 9 3).opcode = 0x55 ∧
    (FaultRecord.invalidRegisterIndex 0x55 9 3).operand = some 9 ∧ (FaultRecord.invalidRegisterIndex 0x55 9 3).pcAt = 3 ∧
    (FaultRecord.unsupportedOpcode 0x55 3).operand = none := by decide
/-- Writing the value an unlisted cell reads as removes the entry. -/
theorem test_write_zero_removes : ((State.reset.writeMem 5 7).writeMem 5 0).mem = [] := by decide

/-! ### Witnesses: a state that meets each statement's hypotheses

The hypotheses of `StepsToNoOperand`, `StepsToOneRegister`, `StepsToRegisterAndImmediate` and `StepsToTwoRegisters` under
the default table: the core runs and the row's byte stands at `pc`; the operand clauses at their boundaries 7 and 8. -/

/-- The premises that every `StepsTo…` statement shares. -/
def StandsAtPc (s : State) (m : Mnemonic) : Prop := OPC.wellFormed = true ∧ Running s ∧ s.readMem s.pc = OPC m

theorem witness_ldi : StandsAtPc (codeAt 0 [0x82, 7, 255]) .ldi ∧ ((codeAt 0 [0x82, 7, 255]).readMem 1).toNat = (7 : Reg).val ∧
    StandsAtPc (codeAt 0 [0x82, 8, 255]) .ldi ∧ 7 < ((codeAt 0 [0x82, 8, 255]).readMem 1).toNat :=
  ⟨⟨by decide, ⟨rfl, rfl⟩, by decide⟩, by decide, ⟨by decide, ⟨rfl, rfl⟩, by decide⟩, by decide⟩

theorem witness_one_register_rows : ∀ m ∈ [Mnemonic.prn, .push, .pop, .call, .jmp, .jeq, .jne],
    StandsAtPc (codeAt 0 [OPC m, 7]) m ∧ ((codeAt 0 [OPC m, 7]).readMem 1).toNat = (7 : Reg).val ∧
    StandsAtPc (codeAt 0 [OPC m, 8]) m ∧ 7 < ((codeAt 0 [OPC m, 8]).readMem 1).toNat := by
  simp only [StandsAtPc, Running]; decide

theorem witness_two_register_rows : ∀ m ∈ [Mnemonic.mul, .add, .cmp],
    StandsAtPc (codeAt 0 [OPC m, 7, 7]) m ∧ ((codeAt 0 [OPC m, 7, 7]).readMem 1).toNat = (7 : Reg).val ∧
    ((codeAt 0 [OPC m, 7, 7]).readMem 2).toNat = (7 : Reg).val ∧
    StandsAtPc (codeAt 0 [OPC m, 8, 8]) m ∧ 7 < ((codeAt 0 [OPC m, 8, 8]).readMem 1).toNat ∧
    StandsAtPc (codeAt 0 [OPC m, 7, 8]) m ∧ 7 < ((codeAt 0 [OPC m, 7, 8]).readMem 2).toNat := by
  simp only [StandsAtPc, Running]; decide

theorem witness_no_operand_rows : ∀ m ∈ [Mnemonic.ret, .hlt], StandsAtPc (codeAt 0 [OPC m]) m := by
  simp only [StandsAtPc, Running]; decide

/-- AddAddsModulo256, the clause on adding 255. -/
theorem witness_add_255 : State.reset.reg 7 = 255 := by decide

/-- CmpOnlyEverSetsEqual: equal and unequal operands, and a state with Equal set. -/
theorem witness_cmp : State.reset.reg 0 = State.reset.reg 1 ∧ State.reset.reg 0 ≠ State.reset.reg 7 ∧
    Reaches OPC (State.reset.setFl 1) (State.reset.setFl 1) ∧ (State.reset.setFl 1).fl.getLsbD 0 = true :=
  ⟨by decide, by decide, .here _, by decide⟩

/-- JmpGoesToTheRegister: a JMP to its own address. -/
theorem witness_jmp_to_itself : (codeAt 0 [0x54, 0]).reg 0 = (codeAt 0 [0x54, 0]).pc := by decide

/-- JeqBranchesWhenEqualIsSet and JneBranchesWhenEqualIsClear: both values of Equal. -/
theorem witness_both_flag_values : State.reset.fl.getLsbD 0 = false ∧ (State.reset.setFl 1).fl.getLsbD 0 = true := by decide

/-- PopLoadsTheStackTop and PushStoresBelowTheStackTop: a register other than 7, and 7. -/
theorem witness_stack_registers : (6 : Reg) ≠ 7 ∧ (7 : Reg) = 7 := by decide

/-- HltEndsTheRun and RunIsClearedByHltAlone: a step that ends with `RUN` 0, and one that takes a fault. -/
theorem witness_hlt_step : Running (codeAt 0 [0x01]) ∧
    (∃ u, stepWith OPC (codeAt 0 [0x01]) = .next u ∧ u.run = false) ∧
    (∃ u, stepWith OPC State.reset = .next u ∧ Faulted u) ∧
    State.reset.stopRunning.run = false ∧ Reaches OPC State.reset.stopRunning State.reset.stopRunning :=
  ⟨⟨rfl, rfl⟩, ⟨_, rfl, rfl⟩, ⟨_, rfl, by simp [Faulted]⟩, rfl, .here _⟩

/-- EqualFlagIsStickyAndCmpsAlone: a step that changes `FL`, a run from a state with Equal set, and an instruction that is
no JEQ and no JNE. -/
theorem witness_flag_step :
    (∃ u, stepWith OPC (codeAt 0 [0xA7, 0, 1]) = .next u ∧ u.fl ≠ (codeAt 0 [0xA7, 0, 1]).fl) ∧
    Reaches OPC (State.reset.setFl 1) (State.reset.setFl 1) ∧ (State.reset.setFl 1).fl.getLsbD 0 = true ∧
    (∀ r, Instr.cmp 0 1 ≠ .jeq r) ∧ (∀ r, Instr.cmp 0 1 ≠ .jne r) ∧ ∃ u, exec (.cmp 0 1) State.reset = .next u :=
  ⟨⟨_, rfl, by decide⟩, .here _, by decide, by simp, by simp, ⟨_, rfl⟩⟩

/-- RegistersReadAndWritten: a register of each column (`R7` of CALL), the last operand of a CMP of two registers, and POP
of a register other than `R7`. -/
theorem witness_register_columns : (7 : Reg) ∈ regsWritten (.call 0) ∧ (7 : Reg) ∈ regsRead (.call 0) State.reset ∧
    Instr.call 0 ≠ .cmp 7 7 ∧ (7 : Reg) ∈ regsRead (.cmp 6 7) State.reset ∧ Instr.cmp 6 7 ≠ .cmp 7 7 ∧ (6 : Reg) ≠ 7 := by
  decide

/-- RegistersReadAndWritten: a register outside the read column, for an instruction that writes it and one that does not. -/
theorem witness_unread_register : (0 : Reg) ∉ regsRead (.pop 0) State.reset ∧ (2 : Reg) ∉ regsRead (.jeq 2) State.reset ∧
    (∃ u, exec (.pop 0) State.reset = .next u) ∧ ∃ u, exec (.jeq 2) State.reset = .next u :=
  ⟨by decide, by decide, exec_answers_next _ _, exec_answers_next _ _⟩

/-- OutGrowsByPrnAlone: a step that changes `OUT`. -/
theorem witness_prn_step : ∃ u, stepWith OPC (codeAt 0 [0x47, 0]) = .next u ∧ u.out ≠ (codeAt 0 [0x47, 0]).out :=
  ⟨_, rfl, by decide⟩

/-- MemoryIsWrittenByPushAndCallAlone: steps of PUSH and of CALL that change a cell. -/
theorem witness_storing_steps :
    (∃ u, stepWith OPC (codeAt 0 [0x45, 7]) = .next u ∧ u.readMem 254 ≠ (codeAt 0 [0x45, 7]).readMem 254) ∧
    (∃ u, stepWith OPC (codeAt 0 [0x50, 0]) = .next u ∧ u.readMem 254 ≠ (codeAt 0 [0x50, 0]).readMem 254) :=
  ⟨⟨_, rfl, by decide⟩, ⟨_, rfl, by decide⟩⟩

/-- NextPcComesFromFourSources, FaultingStepChangesTheLatchAlone: steps that fault, one of each kind, and one that does not. -/
theorem witness_steps :
    (∃ u, stepWith OPC State.reset = .next u ∧ u.fault = some (.unsupportedOpcode 0 0)) ∧
    (∃ u, stepWith OPC (codeAt 0 [0xA0, 7, 8]) = .next u ∧ u.fault = some (.invalidRegisterIndex 0xA0 8 0)) ∧
    (∃ u, stepWith OPC (codeAt 0 [0x11]) = .next u ∧ ¬ Faulted u) :=
  ⟨⟨_, rfl, rfl⟩, ⟨_, rfl, rfl⟩, ⟨_, rfl, by simp [Faulted]; decide⟩⟩

/-- CanonicalMemoryIsDeterminedByItsCells. -/
theorem witness_canonical : Memory.wf [(0, 1), (255, 2)] = true ∧
    ∀ a : Byte, Memory.read [(0, 1), (255, 2)] a = Memory.read [(0, 1), (255, 2)] a := ⟨by decide, fun _ => rfl⟩

/-- IllegalOpcodeBytes, RegisterOperandBytesAreChecked, DecodeOfEncodeIsTheInstruction: a well-formed table, another than
the default one, and a byte that is no opcode of it. -/
theorem witness_other_table : OpcodeTable.wellFormed (fun m => OPC m + 1) = true ∧
    (0x01#8) ∉ Mnemonic.all.map (fun m => OPC m + 1) := by decide

/-- DecodedBytesAreTheEncoding, LengthIsAFunctionOfTheOpcode, StepRunsTheDecodedInstruction: bytes that decode with bytes
left over, a byte that matches no row, and a running core whose bytes at `pc` decode. -/
theorem witness_decodes : decode OPC [OPC .jmp, 3, 0x82] = .ok (.jmp 3, [0x82]) ∧ (∀ m, OPC m ≠ 0x00) ∧
    Running (codeAt 0 [0x54, 3]) ∧
    decode OPC [(codeAt 0 [0x54, 3]).readMem 0, (codeAt 0 [0x54, 3]).readMem 1, (codeAt 0 [0x54, 3]).readMem 2] =
      .ok (.jmp 3, [0]) :=
  ⟨by decide, fun m => by cases m <;> decide, ⟨rfl, rfl⟩, by decide⟩

/-- FetchWordIsTheNextInstruction: a word that decodes and one that does not. -/
theorem witness_fetch_word : Running State.reset ∧ decodeTableWord 16 0x0745 = some (.push 7) ∧
    decodeTableWord 16 0x0845 = none := ⟨⟨rfl, rfl⟩, by decide, by decide⟩

/-- UnsupportedOpcodeIsReported. -/
theorem witness_unsupported : Running State.reset ∧ ∀ m, OPC m ≠ State.reset.readMem State.reset.pc :=
  ⟨⟨rfl, rfl⟩, fun m => by cases m <;> decide⟩

/-- StepsExactlyWhileRunning, RunIsClearedByHltAlone: a running core, a halted one, a faulted one. -/
theorem witness_stopped : Running State.reset ∧
    (Halted State.reset.stopRunning ∧ ¬ Faulted State.reset.stopRunning ∧ ¬ Running State.reset.stopRunning) ∧
    (State.reset.takeFault (.unsupportedOpcode 0 0)).fault = some (.unsupportedOpcode 0 0) ∧
    Reaches OPC State.reset.stopRunning State.reset.stopRunning :=
  ⟨⟨rfl, rfl⟩, ⟨rfl, by simp [Faulted, State.reset], by simp [Running]⟩, rfl, .here _⟩

/-- PushedByteIsTheNextOpcode: PUSH R0 at 0 with SP 3, pushing a RET, and pushing a byte that is no opcode. -/
theorem witness_pushed_byte :
    let s := ((codeAt 0 [0x45, 0]).setReg 7 3).setReg 0 0x11
    StandsAtPc s .push ∧ (s.readMem (s.pc + 1)).toNat = (0 : Reg).val ∧ (0 : Reg) ≠ 7 ∧ s.reg 7 - 1 = s.pc + 2 ∧
      decodeBytes OPC (s.reg 0) (s.readMem (s.pc + 3)) (s.readMem (s.pc + 4)) = .ok .ret ∧
      ∀ m, OPC m ≠ ((codeAt 0 [0x45, 0]).setReg 7 3).reg 0 :=
  ⟨⟨by decide, ⟨rfl, rfl⟩, by decide⟩, by decide, by decide, by decide, by decide, fun m => by cases m <;> decide⟩

/-- PushThenPopRoundTrip, V39a and with `R7`. -/
theorem witness_push_pop : ∀ r ∈ [(2 : Reg), 7],
    let s := codeAt 0 [0x45, regByte r, 0x46, regByte r]
    StandsAtPc s .push ∧ (s.readMem (s.pc + 1)).toNat = r.val ∧ s.readMem (s.pc + 2) = OPC .pop ∧
      (s.readMem (s.pc + 3)).toNat = r.val ∧ s.reg 7 - 1 ≠ s.pc + 2 ∧ s.reg 7 - 1 ≠ s.pc + 3 := by
  simp only [StandsAtPc, Running]; decide

/-- CallThenRetReturns: a CALL through R1 of a RET at 16, its operand at the boundary of the clause on R7, and the state
the CALL leaves as the later state. -/
theorem witness_call_ret :
    let s := ((codeAt 0 [0x50, 1]).setReg 1 16).writeMem 16 0x11
    StandsAtPc s .call ∧ (s.readMem (s.pc + 1)).toNat = (1 : Reg).val ∧ (1 : Reg) ≠ 7 ∧
      s.readMem (s.reg 1) = OPC .ret ∧ s.reg 1 ≠ s.reg 7 - 1 ∧
      ∃ u, stepWith OPC s = .next u ∧ Reaches OPC u u ∧ Running u ∧ u.readMem u.pc = OPC .ret :=
  ⟨⟨by decide, ⟨rfl, rfl⟩, by decide⟩, by decide, by decide, by decide, by decide, ⟨_, rfl, .here _, ⟨rfl, rfl⟩, by decide⟩⟩

/-- JumpToItselfRunsForEver (V46). -/
theorem witness_endless_jump :
    let s := codeAt 0 [0x54, 0]
    StandsAtPc s .jmp ∧ (s.readMem (s.pc + 1)).toNat = (0 : Reg).val ∧ s.reg 0 = s.pc :=
  ⟨⟨by decide, ⟨rfl, rfl⟩, by decide⟩, by decide, by decide⟩

/-- StoppedRunIsStable: a run that stops halted and one that stops faulted. -/
theorem witness_stopped_runs : (∃ u, runWith OPC 2 (codeAt 0 [0x01]) = .stopped .coreHalted u) ∧
    ∃ u, runWith OPC 2 State.reset = .stopped (.coreFaulted (.unsupportedOpcode 0 0)) u := ⟨⟨_, rfl⟩, ⟨_, rfl⟩⟩

/-- LoadPlacesTheImage, LoadFailsOutsideItsContract, InvariantHoldsAfterLoad. -/
theorem witness_loads : ([0x01#8] : List Byte).length ≤ 256 ∧ (∃ image : List Byte, 256 < image.length) ∧
    Session.loaded State.reset ≠ .afterReset ∧ ∃ u, load [0x01] .afterReset = .ok u :=
  ⟨by decide, ⟨List.replicate 257 0x01, by rw [List.length_replicate]; decide⟩, by decide, ⟨_, rfl⟩⟩

/-- LoadIsPerformedOnceAfterReset, EveryRunStartsFromReset: a Load of no bytes and a Run, and moves without Reset after
them that run the core; a whole life of a machine that ends started. -/
theorem witness_lifecycle : (∃ h, load [] .afterReset = .ok h) ∧ (∃ s, runFrom (.loaded State.reset) = .ok s) ∧
    (∃ v, runFrom (Session.moves OPC [.coreStep] (Session.move OPC .run .afterReset)) = .ok v) ∧
    .reset ∉ [Move.run, .coreStep, .load [0x01]] ∧
    ∃ u, Session.moves OPC [.load [], .reset, .load [0x01], .run, .coreStep] .needsReset = .started u :=
  ⟨⟨_, rfl⟩, ⟨_, rfl⟩, ⟨_, rfl⟩, by decide, ⟨_, rfl⟩⟩

/-- RunOfAStoppedMachineReturnsAtOnce: a halted core, a faulted one, a running one, and moves of Run and of the core. -/
theorem witness_run_of_stopped : ¬ Running State.reset.stopRunning ∧
    ¬ Running (State.reset.takeFault (.unsupportedOpcode 0 0)) ∧ Running State.reset ∧
    ∀ m ∈ [Move.run, .coreStep], m = .run ∨ m = .coreStep :=
  ⟨fun h => (nomatch h.1), fun h => (nomatch h.2), ⟨rfl, rfl⟩, by decide⟩

/-- EveryStepKeepsTheInvariant: a state with the invariant whose step goes on. -/
theorem witness_invariant : Inv OPC (codeAt 0 [0x45, 0]) ∧ ∃ u, step (codeAt 0 [0x45, 0]) = .next u :=
  ⟨⟨by decide, .inl rfl, fun h => (nomatch h.1), fun _ h => (nomatch h)⟩, ⟨_, rfl⟩⟩

/-- EveryRunKeepsFlagsAndStatus: stopped states reached from boot, one halted and one faulted. -/
theorem witness_stopped_from_boot :
    (∃ u, ReachedFromBoot OPC [0x01] u ∧ ¬ Running u ∧ u.isHalted = true) ∧
    (∃ u, ReachedFromBoot OPC [] u ∧ ¬ Running u ∧ u.isFaulted = true) :=
  ⟨⟨_, ⟨_, rfl, .step _ _ _ (.here _) rfl⟩, fun h => (nomatch h.1), rfl⟩,
   ⟨_, ⟨_, rfl, .step _ _ _ (.here _) rfl⟩, fun h => (nomatch h.2), rfl⟩⟩

end Sys2Proof.Tests
end

/-! ## State: the proofs of the statements of 10_state.md (O14 to O17, O21, O38, O41, O43, O44) -/

namespace Sys2Proof.Machine

/-! ### What an instruction does to each item of state -/

/-- No instruction writes the fault latch (R104: only the step's own fault does). -/
theorem exec_fault {i : Instr} {s u : State} (h : exec i s = .next u) : u.fault = s.fault := by
  cases i <;> simp at h <;> subst h <;> rfl

/-- HLT clears `RUN` and no other instruction writes it (R18, R86). -/
theorem exec_run {i : Instr} {s u : State} (h : exec i s = .next u) :
    u.run = if i = .hlt then false else s.run := by
  cases i <;> simp at h <;> subst h <;> rfl

/-- The one write an instruction makes to `FL` is CMP's, of bit 0 and on equal operands (R17, R75). -/
theorem exec_fl {i : Instr} {s u : State} (h : exec i s = .next u) :
    u.fl = s.fl ∨ ∃ rA rB, i = .cmp rA rB ∧ s.reg rA = s.reg rB ∧ u.fl = s.fl ||| 1 := by
  cases i with
  | cmp rA rB =>
    simp at h; subst h
    by_cases e : s.reg rA = s.reg rB <;> simp [e]
  | _ => simp at h; subst h; exact .inl rfl

/-- Only PRN writes `OUT`, and it appends its register's byte (R20, R71). -/
theorem exec_out {i : Instr} {s u : State} (h : exec i s = .next u) :
    u.out = s.out ∨ ∃ r, i = .prn r ∧ u.out = s.out ++ [s.reg r] := by
  cases i <;> simp at h <;> subst h <;> simp

/-- Every instruction keeps the canonical form of memory. -/
theorem exec_memCanonical {i : Instr} {s u : State} (h : exec i s = .next u) (hm : s.mem.wf = true) :
    u.mem.wf = true := by
  cases i <;> simp at h <;> subst h <;> simp [hm, wf_write]

/-- An instruction that is no JEQ and no JNE does the same to all state but `FL`, whatever `FL` was (R17). -/
theorem exec_with_fl {i : Instr} {s u : State} (f : Byte) (hjeq : ∀ r, i ≠ .jeq r) (hjne : ∀ r, i ≠ .jne r)
    (h : exec i s = .next u) : ∃ g, exec i { s with fl := f } = .next { u with fl := g } := by
  cases i with
  | jeq r => exact absurd rfl (hjeq r)
  | jne r => exact absurd rfl (hjne r)
  | cmp rA rB =>
    simp at h; subst h
    exact ⟨if s.reg rA = s.reg rB then f ||| 1 else f, exec_cmp rA rB _⟩
  | _ => simp at h; subst h; exact ⟨f, by simp; rfl⟩

/-- No instruction reads `RUN` (R18). -/
theorem exec_with_run {i : Instr} {s u : State} (b : Bool) (h : exec i s = .next u) :
    exec i { s with run := b } = .next { u with run := if i = .hlt then false else b } := by
  cases i <;> simp at h <;> subst h <;> simp <;> rfl

/-- No instruction reads `OUT` (R20). -/
theorem exec_with_out {i : Instr} {s u : State} (o : List Byte) (h : exec i s = .next u) :
    ∃ o', exec i { s with out := o } = .next { u with out := o' } := by
  cases i with
  | prn r => simp at h; subst h; exact ⟨o ++ [s.reg r], rfl⟩
  | _ => simp at h; subst h; exact ⟨o, by simp; rfl⟩

/-! ### What stands at `pc` when a step decodes an instruction -/

/-- A register check that goes on found a byte that names a register (R48). -/
theorem withReg_eq_ok {α : Type} {b : Byte} {k : Reg → Except Byte α} {x : α} (h : withReg b k = .ok x) :
    ∃ r : Reg, b.toNat = r.val ∧ k r = .ok x := by
  obtain ⟨hb, y, hy⟩ := (withReg_ok_iff b k).mp ⟨x, h⟩
  exact ⟨⟨b.toNat, hb⟩, rfl, by rw [← withReg_of_lt k hb, h]⟩

/-- The byte at `pc` is the decoded instruction's own opcode, and its operands are what the row's operand bytes give. -/
theorem decodeAtPc_eq_ok {t : OpcodeTable} {s : State} {i : Instr} (h : decodeAtPc t s = .ok i) :
    s.readMem s.pc = t i.mnemonic ∧
      decodeOperands i.mnemonic (s.readMem (s.pc + 1)) (s.readMem (s.pc + 2)) = .ok i := by
  obtain ⟨m, hl, ho⟩ := decodeBytes_eq_ok.mp h
  rw [mnemonic_of_decodeOperands ho]
  exact ⟨(byte_of_lookup hl).symm, ho⟩

/-- A decoded CMP stands at `pc` with the register bytes of its two operands (R75). -/
theorem decodeAtPc_cmp {t : OpcodeTable} {s : State} {rA rB : Reg} (h : decodeAtPc t s = .ok (.cmp rA rB)) :
    s.readMem s.pc = t .cmp ∧ (s.readMem (s.pc + 1)).toNat = rA.val ∧ (s.readMem (s.pc + 2)).toNat = rB.val := by
  obtain ⟨hop, ho⟩ := decodeAtPc_eq_ok h
  simp only [Instr.mnemonic, decodeOperands] at ho
  obtain ⟨a, ha, ho⟩ := withReg_eq_ok ho
  obtain ⟨b, hb, ho⟩ := withReg_eq_ok ho
  obtain ⟨rfl, rfl⟩ : a = rA ∧ b = rB := by simpa using ho
  exact ⟨hop, ha, hb⟩

/-- A decoded PRN stands at `pc` with the register byte of its operand (R71). -/
theorem decodeAtPc_prn {t : OpcodeTable} {s : State} {r : Reg} (h : decodeAtPc t s = .ok (.prn r)) :
    s.readMem s.pc = t .prn ∧ (s.readMem (s.pc + 1)).toNat = r.val := by
  obtain ⟨hop, ho⟩ := decodeAtPc_eq_ok h
  simp only [Instr.mnemonic, decodeOperands] at ho
  obtain ⟨a, ha, ho⟩ := withReg_eq_ok ho
  obtain rfl : a = r := by simpa using ho
  exact ⟨hop, ha⟩

/-! ### The invariant -/

/-- In a running core the clauses on the status and the record say nothing. -/
theorem inv_of_running {t : OpcodeTable} {s : State} (hs : Running s) (hm : s.mem.wf = true)
    (hf : s.fl = 0x00#8 ∨ s.fl = 0x01#8) : Inv t s where
  memCanonical := hm
  flagsOnlyEqual := hf
  notHaltedAndFaulted := fun ⟨_, hfault⟩ => hfault hs.2
  recordIsAccurate := fun record h => by simp [hs.2] at h

/-- Taking the fault the decoder finds keeps the invariant: the decoder finds the same again at the same `pc`. -/
theorem inv_takeFault {t : OpcodeTable} {s : State} {e : Illegal} (h : Inv t s) (hs : Running s)
    (hd : decodeAtPc t s = .error e) : Inv t (s.takeFault (illegalRecord e s.pc)) where
  memCanonical := h.memCanonical
  flagsOnlyEqual := h.flagsOnlyEqual
  notHaltedAndFaulted := fun ⟨hhalt, _⟩ => by simp [Halted, hs.1] at hhalt
  recordIsAccurate := fun record hr =>
    ⟨e, (decodeAtPc_congr (fun _ => rfl) rfl).trans hd, by simpa [eq_comm] using hr⟩

/-- An instruction's write of `FL` keeps it 0x00 or 0x01 (R16). -/
theorem exec_flagsOnlyEqual {i : Instr} {s u : State} (h : exec i s = .next u)
    (hf : s.fl = 0x00#8 ∨ s.fl = 0x01#8) : u.fl = 0x00#8 ∨ u.fl = 0x01#8 := by
  obtain hu | ⟨_, _, -, -, hu⟩ := exec_fl h
  · rwa [hu]
  · right
    obtain hs | hs := hf <;> rw [hu, hs] <;> decide

/-- Executing an instruction in a running core keeps the invariant: no instruction latches a record. -/
theorem inv_exec {t : OpcodeTable} {i : Instr} {s u : State} (h : Inv t s) (hs : Running s)
    (he : exec i s = .next u) : Inv t u :=
  have hfault : u.fault = none := (exec_fault he).trans hs.2
  { memCanonical := exec_memCanonical he h.memCanonical
    flagsOnlyEqual := exec_flagsOnlyEqual he h.flagsOnlyEqual
    notHaltedAndFaulted := fun ⟨_, hf⟩ => hf hfault
    recordIsAccurate := fun record hr => by simp [hfault] at hr }

theorem inv_stepWith {t : OpcodeTable} {s u : State} (h : Inv t s) (hstep : stepWith t s = .next u) : Inv t u := by
  obtain ⟨hs, ⟨e, hd, rfl⟩ | ⟨i, -, he⟩⟩ := stepWith_next hstep
  · exact inv_takeFault h hs hd
  · exact inv_exec h hs he

/-- The invariant holds after Reset and the writing of any image (R92). -/
theorem inv_writeBytes_reset (t : OpcodeTable) (a : Byte) (image : List Byte) :
    Inv t (State.reset.writeBytes a image) := by
  obtain ⟨-, hfl, -, hrun, hfault, -⟩ := writeBytes_fields State.reset a image
  exact inv_of_running ⟨hrun, hfault⟩ (wf_writeBytes _ _ _ wf_reset) (.inl hfl)

/-- The invariant holds in every state of every run of the boot sequence (R121). -/
theorem inv_of_reachedFromBoot {t : OpcodeTable} {image : List Byte} {u : State} (h : ReachedFromBoot t image u) :
    Inv t u := by
  obtain ⟨s, hl, hr⟩ := h
  obtain ⟨-, rfl⟩ := launch_ok hl
  exact hr.induct_kept (fun _ _ => inv_stepWith) (inv_writeBytes_reset t 0#8 image)

theorem isHalted_iff (s : State) : s.isHalted = true ↔ Halted s := by simp [State.isHalted, Halted]

theorem isFaulted_iff (s : State) : s.isFaulted = true ↔ Faulted s := by
  simp [State.isFaulted, Faulted, Option.isSome_iff_ne_none]

/-- A core that is not running answers, to a step, the reason the host sees (R68, R96). -/
theorem stopped_cases (t : OpcodeTable) {s : State} (h : ¬ Running s) :
    (s.isHalted = true ∧ stepWith t s = .fault .coreHalted) ∨
      (s.isFaulted = true ∧ ∃ record, stepWith t s = .fault (.coreFaulted record)) := by
  cases hf : s.fault with
  | some record =>
    exact .inr ⟨by simp [State.isFaulted, hf], record, stepWith_of_stopped (by simp [stopReason, hf])⟩
  | none =>
    have hr : s.run = false := by simpa [Running, hf] using h
    exact .inl ⟨by simp [State.isHalted, hr], stepWith_of_stopped (by simp [stopReason, hf, hr])⟩

/-- Settles O43: a step of a core with the invariant either latches what the decoder found, or executes an instruction,
which latches nothing. -/
theorem everyStepKeepsTheInvariant : Obligations.EveryStepKeepsTheInvariant :=
  ⟨fun _ _ => inv_stepWith, fun _ _ _ => inv_stepWith⟩

/-- Settles O41: Reset leaves a running core with empty memory and `FL` 0. -/
theorem invariantHoldsAfterReset : Obligations.InvariantHoldsAfterReset :=
  fun _ => inv_of_running ⟨rfl, rfl⟩ wf_reset (.inl rfl)

/-- Settles O44, by the invariant of the states reached from the boot sequence. -/
theorem everyRunKeepsFlagsAndStatus : Obligations.EveryRunKeepsFlagsAndStatus := by
  intro t image u hu
  have hinv := inv_of_reachedFromBoot hu
  have hG : u.flagG = false := by
    obtain hf | hf := hinv.flagsOnlyEqual <;> simp [State.flagG, hf]
  have hL : u.flagL = false := by
    obtain hf | hf := hinv.flagsOnlyEqual <;> simp [State.flagL, hf]
  refine ⟨hinv.flagsOnlyEqual, hG, hL, ?_, stopped_cases t⟩
  rw [isHalted_iff, isFaulted_iff]
  exact hinv.notHaltedAndFaulted

/-- Settles O38: the registers are the eight of the reset file, and an unlisted cell reads as 0. -/
theorem resetLeavesTheSpecState : Obligations.ResetLeavesTheSpecState := by
  intro s
  have hregs : ∀ q : Reg, q ≠ 7 → State.reset.reg q = 0 := by decide
  exact ⟨fun _ => rfl, hregs, rfl, rfl, rfl, rfl, rfl, rfl⟩

/-! ### Canonical memory -/

/-- In memory whose addresses rise, the entry of a cell is what the cell reads as. -/
theorem readAt_of_mem {m : Memory} (hm : m.Pairwise (fun c d => c.1 < d.1)) {c : Host.Cell} (hc : c ∈ m) :
    m.readAt c.1 = c.2 := by
  induction m with
  | nil => simp at hc
  | cons d rest ih =>
    obtain ⟨hd, hrest⟩ := List.pairwise_cons.mp hm
    obtain rfl | hc := List.mem_cons.mp hc
    · simp [Memory.readAt]
    · have hne : d.1 ≠ c.1 := (hd c hc).ne
      simp [Memory.readAt, hne, ih hrest hc]

/-- A cell that does not read as unlisted has an entry. -/
theorem mem_of_readAt {m : Memory} {k : Nat} (h : m.readAt k ≠ Memory.unlisted) : (k, m.readAt k) ∈ m := by
  induction m with
  | nil => exact absurd rfl h
  | cons d rest ih =>
    by_cases hd : d.1 = k
    · simp [Memory.readAt, ← hd]
    · simp only [Memory.readAt, hd, if_false] at h ⊢
      exact List.mem_cons_of_mem d (ih h)

/-- The entries of a canonical memory are the cells that do not read as unlisted, with what they read as. -/
theorem mem_iff_read {m : Memory} (hm : m.wf = true) (c : Host.Cell) :
    c ∈ m ↔ ∃ a : Byte, m.read a ≠ Memory.unlisted ∧ c = (a.toNat, m.read a) := by
  obtain ⟨hsorted, hentries⟩ := (wf_iff m).mp hm
  constructor
  · intro hc
    obtain ⟨hlt, hne⟩ := hentries c hc
    have ha : (BitVec.ofNat 8 c.1).toNat = c.1 := by simpa using hlt
    have hread : m.read (BitVec.ofNat 8 c.1) = c.2 := by rw [Memory.read, ha, readAt_of_mem hsorted hc]
    exact ⟨BitVec.ofNat 8 c.1, hread ▸ hne, by rw [hread, ha]⟩
  · rintro ⟨a, hne, rfl⟩
    exact mem_of_readAt hne

/-- Settles O21: two canonical memories that read the same have the same entries, in rising order. -/
theorem canonicalMemoryIsDeterminedByItsCells : Obligations.CanonicalMemoryIsDeterminedByItsCells := by
  intro m n hm hn hread
  have irrefl : Std.Irrefl (fun c d : Host.Cell => c.1 < d.1) := ⟨fun c => lt_irrefl c.1⟩
  have antisymm : Std.Antisymm (fun c d : Host.Cell => c.1 < d.1) :=
    ⟨fun _ _ hcd hdc => absurd hcd hdc.asymm⟩
  have hmem : ∀ c, c ∈ m ↔ c ∈ n := by simp [mem_iff_read hm, mem_iff_read hn, hread]
  exact ((wf_iff m).mp hm).1.eq_of_mem_iff ((wf_iff n).mp hn).1 hmem

/-! ### `FL`, `RUN` and `OUT` over a step -/

/-- `FL.E <- 1` changes nothing where Equal is set already (R75). -/
theorem or_one_of_equal {f : Byte} (h : f.getLsbD 0 = true) : f ||| 1#8 = f := by
  ext k hk
  cases k with
  | zero => simpa using h
  | succ k => simp

/-- A step that changes `FL` set Equal, as a CMP of equal registers. -/
theorem stepWith_fl {t : OpcodeTable} {s u : State} (h : stepWith t s = .next u) :
    u.fl = s.fl ∨ ∃ rA rB, decodeAtPc t s = .ok (.cmp rA rB) ∧ s.reg rA = s.reg rB ∧ u.fl = s.fl ||| 1#8 := by
  obtain ⟨-, ⟨e, -, rfl⟩ | ⟨i, hd, he⟩⟩ := stepWith_next h
  · exact .inl rfl
  · obtain hu | ⟨rA, rB, rfl, heq, hu⟩ := exec_fl he
    · exact .inl hu
    · exact .inr ⟨rA, rB, hd, heq, hu⟩

/-- Equal is sticky over one step (R17). -/
theorem stepWith_keeps_equal {t : OpcodeTable} {s u : State} (hs : s.fl.getLsbD 0 = true)
    (h : stepWith t s = .next u) : u.fl.getLsbD 0 = true := by
  obtain hu | ⟨_, _, -, -, hu⟩ := stepWith_fl h
  · rwa [hu]
  · simp [hu]

/-- Settles O14: over a step `FL` changes by CMP alone, every step keeps Equal set, and only JEQ and JNE read `FL`. -/
theorem equalFlagIsStickyAndCmpsAlone : Obligations.EqualFlagIsStickyAndCmpsAlone := by
  refine ⟨?_, fun t s u hr hs => hr.induct_kept (fun _ _ => stepWith_keeps_equal) hs,
    fun i s u f hjeq hjne h => exec_with_fl f hjeq hjne h⟩
  intro t s u _ hstep hne
  obtain hu | ⟨rA, rB, hd, heq, hu⟩ := stepWith_fl hstep
  · exact absurd hu hne
  · obtain ⟨hop, hA, hB⟩ := decodeAtPc_cmp hd
    have hclear : s.fl.getLsbD 0 = false := by
      by_contra hset
      exact hne (hu.trans (or_one_of_equal (by simpa using hset)))
    refine ⟨hop, ⟨rA, rB, hA, hB, heq⟩, hclear, by simp [hu], fun k hk _ => ?_⟩
    have hk0 : k ≠ 0 := by omega
    simp [hu, hk0]

/-- A step ends with `RUN` 0 exactly when the decoded instruction is HLT. -/
theorem stepWith_run {t : OpcodeTable} {s u : State} (h : stepWith t s = .next u) :
    u.run = false ↔ decodeAtPc t s = .ok .hlt := by
  obtain ⟨⟨hrun, -⟩, ⟨e, hd, rfl⟩ | ⟨i, hd, he⟩⟩ := stepWith_next h
  · simp [hd, hrun]
  · simp [hd, exec_run he, hrun]

/-- A step that ends faulted executed no instruction, so `RUN` is still 1 (R18, R104). -/
theorem stepWith_faulted_run {t : OpcodeTable} {s u : State} (h : stepWith t s = .next u) (hf : Faulted u) :
    u.run = true := by
  obtain ⟨⟨hrun, hfault⟩, ⟨e, -, rfl⟩ | ⟨i, -, he⟩⟩ := stepWith_next h
  · exact hrun
  · exact absurd ((exec_fault he).trans hfault) hf

/-- HLT is decoded exactly where its byte stands (R86: it has no operands). -/
theorem decodeAtPc_eq_hlt {t : OpcodeTable} {s : State} (ht : t.wellFormed = true) :
    decodeAtPc t s = .ok .hlt ↔ s.readMem s.pc = t .hlt :=
  ⟨fun h => (decodeAtPc_eq_ok h).1, fun h => decodeAtPc_of_row ht h rfl⟩

/-- A core that is not running takes no step (R68). -/
theorem stepWith_of_not_running (t : OpcodeTable) {s : State} (h : ¬ Running s) : ∃ why, stepWith t s = .fault why := by
  obtain ⟨-, hw⟩ | ⟨-, record, hw⟩ := stopped_cases t h
  · exact ⟨_, hw⟩
  · exact ⟨_, hw⟩

/-- Settles O15: a step clears `RUN` exactly when it decodes HLT, and no step is taken with `RUN` 0. -/
theorem runIsClearedByHltAlone : Obligations.RunIsClearedByHltAlone := by
  refine ⟨rfl, fun t s u ht hstep => ⟨?_, stepWith_faulted_run hstep⟩, fun t s u hs hr => ?_, fun t s hs => ?_,
    isHalted_iff, fun i s u b h => exec_with_run b h⟩
  · rw [stepWith_run hstep, decodeAtPc_eq_hlt ht]
  · refine hr.induct_kept (P := Halted) (fun v w hv hw => ?_) hs
    obtain ⟨⟨hrun, -⟩, -⟩ := stepWith_next hw
    simp [Halted, hrun] at hv
  · refine stepWith_of_not_running t fun ⟨hrun, hfault⟩ => ?_
    obtain hs | hs := hs
    · simp [hrun] at hs
    · exact hs hfault

/-- A step that changes `OUT` is a PRN's, of its register's byte (R20). -/
theorem stepWith_out {t : OpcodeTable} {s u : State} (h : stepWith t s = .next u) :
    u.out = s.out ∨ ∃ r, decodeAtPc t s = .ok (.prn r) ∧ u.out = s.out ++ [s.reg r] := by
  obtain ⟨-, ⟨e, -, rfl⟩ | ⟨i, hd, he⟩⟩ := stepWith_next h
  · exact .inl rfl
  · obtain hu | ⟨r, rfl, hu⟩ := exec_out he
    · exact .inl hu
    · exact .inr ⟨r, hd, hu⟩

theorem stepWith_out_grows {t : OpcodeTable} {s u : State} (h : stepWith t s = .next u) : s.out <+: u.out := by
  obtain hu | ⟨r, -, hu⟩ := stepWith_out h
  · exact ⟨[], by rw [hu, List.append_nil]⟩
  · exact ⟨[s.reg r], hu.symm⟩

/-- Neither the decoder nor an instruction reads `OUT` (R20). -/
theorem stepWith_with_out {t : OpcodeTable} {s u : State} (o : List Byte) (h : stepWith t s = .next u) :
    ∃ o', stepWith t { s with out := o } = .next { u with out := o' } := by
  obtain ⟨hs, ⟨e, hd, rfl⟩ | ⟨i, hd, he⟩⟩ := stepWith_next h
  · exact ⟨o, stepWith_of_error (s := { s with out := o }) hs hd⟩
  · obtain ⟨o', ho'⟩ := exec_with_out o he
    exact ⟨o', (stepWith_of_ok (s := { s with out := o }) hs hd).trans ho'⟩

/-- Settles O17: over a step `OUT` changes by PRN alone, so along a run it only grows. -/
theorem outGrowsByPrnAlone : Obligations.OutGrowsByPrnAlone := by
  refine ⟨fun t s u _ hstep hne => ?_, fun t s u hr => ?_, fun t s u o h => stepWith_with_out o h⟩
  · obtain hu | ⟨r, hd, hu⟩ := stepWith_out hstep
    · exact absurd hu hne
    · obtain ⟨hop, hr⟩ := decodeAtPc_prn hd
      exact ⟨hop, r, hr, hu⟩
  · exact hr.induct_kept (P := fun v => s.out <+: v.out) (fun _ _ hv hw => hv.trans (stepWith_out_grows hw))
      ⟨[], List.append_nil _⟩

/-! ### Writing a register before an instruction

Writes of one register are pushed outward past the other updates, so that "the same instruction, with another value in
a register before it" is an equation between states. -/

theorem setReg_writeMem (s : State) (q : Reg) (v a b : Byte) :
    (s.setReg q v).writeMem a b = (s.writeMem a b).setReg q v := rfl
theorem setReg_setPc (s : State) (q : Reg) (v p : Byte) : (s.setReg q v).setPc p = (s.setPc p).setReg q v := rfl
theorem setReg_setFl (s : State) (q : Reg) (v f : Byte) : (s.setReg q v).setFl f = (s.setFl f).setReg q v := rfl
theorem setReg_emit (s : State) (q : Reg) (v b : Byte) : (s.setReg q v).emit b = (s.emit b).setReg q v := rfl
theorem setReg_stopRunning (s : State) (q : Reg) (v : Byte) :
    (s.setReg q v).stopRunning = s.stopRunning.setReg q v := rfl

theorem setReg_setReg_same (s : State) (q : Reg) (v w : Byte) : (s.setReg q v).setReg q w = s.setReg q w := by
  simp [State.setReg]

theorem setReg_comm (s : State) {q r : Reg} (h : q ≠ r) (v w : Byte) :
    (s.setReg q v).setReg r w = (s.setReg r w).setReg q v := by
  have hne : q.val ≠ r.val := fun e => h (Fin.ext e)
  simp [State.setReg, Vector.set_comm _ _ hne]

/-- States that differ in one register alone show the same apart from it. -/
theorem sameApartFrom_setReg (s : State) (q : Reg) (v : Byte) : SameApartFrom q v s (s.setReg q v) :=
  ⟨fun r hr => reg_setReg_other s q r v (by simpa using hr), reg_setReg_same s q v, fun _ _ => rfl, rfl,
    rfl, ⟨rfl, rfl⟩, rfl⟩

/-- No instruction writes a register outside its written column (R14). -/
theorem exec_sameRegsExcept {i : Instr} {s u : State} (h : exec i s = .next u) :
    SameRegsExcept (regsWritten i) s u := by
  intro q hq
  cases i <;> simp at h <;> subst h <;> simp_all [regsWritten]

/-- An instruction does not depend on a register outside its read column (R14): with another value there before, it
gives the same state but for that register, which ends with the written value or keeps the other one. -/
theorem exec_setReg_of_unread {i : Instr} {s u : State} {q : Reg} (v : Byte) (hq : q ∉ regsRead i s)
    (h : exec i s = .next u) :
    exec i (s.setReg q v) = .next (u.setReg q (if q ∈ regsWritten i then u.reg q else v)) := by
  cases i with
  | ldi r imm =>
    simp at h; subst h
    by_cases hr : q = r
    · subst hr
      simp [regsWritten, setReg_setPc, setReg_setReg_same]
    · simp [regsWritten, hr, setReg_setPc, setReg_comm _ hr]
  | mul rA rB | add rA rB =>
    simp at h; subst h
    obtain ⟨hA, hB⟩ : q ≠ rA ∧ q ≠ rB := by simpa [regsRead] using hq
    simp [regsWritten, hA, hA.symm, hB.symm, setReg_setPc, setReg_comm _ hA]
  | cmp rA rB =>
    simp at h; subst h
    obtain ⟨hA, hB⟩ : q ≠ rA ∧ q ≠ rB := by simpa [regsRead] using hq
    simp [regsWritten, hA.symm, hB.symm, setReg_setFl, setReg_setPc]
  | push r | call r =>
    simp at h; subst h
    obtain ⟨h7, hr⟩ : q ≠ 7 ∧ q ≠ r := by simpa [regsRead] using hq
    simp [regsWritten, h7, h7.symm, hr.symm, setReg_writeMem, setReg_setPc, setReg_comm _ h7]
  | pop r =>
    simp at h; subst h
    have h7 : q ≠ 7 := by simpa [regsRead] using hq
    by_cases hr : q = r
    · subst hr
      simp [regsWritten, h7, h7.symm, setReg_setPc, setReg_setReg_same, setReg_comm _ h7]
    · simp [regsWritten, h7, hr, h7.symm, setReg_setPc, setReg_comm _ h7, setReg_comm _ hr]
  | ret =>
    simp at h; subst h
    have h7 : q ≠ 7 := by simpa [regsRead] using hq
    simp [regsWritten, h7, h7.symm, setReg_setPc, setReg_comm _ h7]
  | prn r | jmp r =>
    simp at h; subst h
    have hr : q ≠ r := by simpa [regsRead] using hq
    simp [regsWritten, hr.symm, setReg_emit, setReg_setPc]
  | jeq r | jne r =>
    simp at h; subst h
    cases hf : s.flagE <;> simp_all [regsRead, regsWritten, flagE_eq, setReg_setPc, Ne.symm]
  | hlt =>
    simp at h; subst h
    simp [regsWritten, setReg_stopRunning, setReg_setPc]

/-! ### The columns of R14 say no more than what happens

States in which each register of a column shows that it is written, or read. -/

/-- The reset state with one byte in every register. -/
def allRegs (v : Byte) : State := { State.reset with regs := Vector.replicate 8 v }

@[simp] theorem reg_allRegs (v : Byte) (q : Reg) : (allRegs v).reg q = v := by simp [allRegs, State.reg]
@[simp] theorem readMem_allRegs (v a : Byte) : (allRegs v).readMem a = 0 := rfl
@[simp] theorem fl_allRegs (v : Byte) : (allRegs v).fl = 0 := rfl
@[simp] theorem pc_allRegs (v : Byte) : (allRegs v).pc = 0 := rfl
@[simp] theorem out_allRegs (v : Byte) : (allRegs v).out = [] := rfl

/-- Every register of an instruction's written column is changed in some state: with 2 in every register the sum and the
product are 4, `SP` moves, and the popped byte is 0; LDI starts from a byte other than its immediate. -/
theorem exists_exec_changes_written (i : Instr) (q : Reg) (hq : q ∈ regsWritten i) :
    ∃ s u, exec i s = .next u ∧ u.reg q ≠ s.reg q := by
  cases i with
  | ldi r imm =>
    obtain rfl : q = r := by simpa [regsWritten] using hq
    exact ⟨allRegs (imm + 1), by simp⟩
  | mul rA rB | add rA rB =>
    obtain rfl : q = rA := by simpa [regsWritten] using hq
    exact ⟨allRegs 2, by simp⟩
  | push r | call r | ret =>
    obtain rfl : q = 7 := by simpa [regsWritten] using hq
    exact ⟨allRegs 2, by simp⟩
  | pop r =>
    refine ⟨allRegs 2, ?_⟩
    by_cases h7 : q = 7
    · subst h7
      by_cases hr : r = 7 <;> simp [hr]
    · obtain rfl : q = r := by simpa [regsWritten, h7] using hq
      simp [h7]
  | prn | cmp | jmp | jeq | jne | hlt => simp [regsWritten] at hq

/-- `u` and `w` differ in what an instruction shows: a register it writes, a cell, `FL`, `pc` or `OUT`. -/
def ShowsDifference (i : Instr) (u w : State) : Prop :=
  (∃ r ∈ regsWritten i, w.reg r ≠ u.reg r) ∨ (∃ a, w.readMem a ≠ u.readMem a) ∨ w.fl ≠ u.fl ∨ w.pc ≠ u.pc ∨
    w.out ≠ u.out

/-- Such a difference is not one in the register `q` alone, where it was given another value before. -/
theorem not_sameApartFrom {i : Instr} {u w : State} {q : Reg} {v : Byte} (h : ShowsDifference i u w) :
    ¬ SameApartFrom q (if q ∈ regsWritten i then u.reg q else v) u w := by
  rintro ⟨hregs, hq, hmem, hfl, hpc, -, hout⟩
  obtain ⟨r, hr, hne⟩ | ⟨a, hne⟩ | hne | hne | hne := h
  · by_cases hrq : r = q
    · subst hrq
      exact hne (by simpa [hr] using hq)
    · exact hne (hregs r (by simpa using hrq))
  · exact hne (hmem a (by simp))
  · exact hne hfl
  · exact hne hpc
  · exact hne hout

/-- A state in which every instruction shows what it reads: all registers hold 1, the cell at `SP` holds another byte
than cell 0, and Equal is `e`. -/
def onesState (e : Bool) : State := ((allRegs 1).writeMem 1 1).setFl (if e then 1 else 0)

@[simp] theorem reg_onesState (e : Bool) (q : Reg) : (onesState e).reg q = 1 := by simp [onesState]
@[simp] theorem readMem_onesState (e : Bool) (a : Byte) : (onesState e).readMem a = if a = 1 then 1 else 0 := by
  simp [onesState, readMem_writeMem]
@[simp] theorem fl_onesState (e : Bool) : (onesState e).fl = if e then 1 else 0 := rfl
@[simp] theorem flagE_onesState (e : Bool) : (onesState e).flagE = e := by cases e <;> rfl
@[simp] theorem pc_onesState (e : Bool) : (onesState e).pc = 0 := rfl
@[simp] theorem out_onesState (e : Bool) : (onesState e).out = [] := rfl

/-- On each register of its read column an instruction depends: with 0 in place of 1 there, PRN emits, JMP, JEQ, JNE and
CALL go to, and PUSH stores another byte; the sum, the product and the moved `SP` are other ones; POP R7 loads from
another cell; and CMP no longer finds its two registers equal. -/
theorem exec_onesState_showsDifference (i : Instr) (s : State) (q : Reg) (hq : q ∈ regsRead i s) (hi : i ≠ .cmp q q) :
    ∃ e u w, q ∈ regsRead i (onesState e) ∧ exec i (onesState e) = .next u ∧
      exec i ((onesState e).setReg q 0) = .next w ∧ ShowsDifference i u w := by
  cases i with
  | ldi | hlt => simp [regsRead] at hq
  | prn r | jmp r =>
    obtain rfl : q = r := by simpa [regsRead] using hq
    exact ⟨false, by simp [regsRead, ShowsDifference]⟩
  | mul rA rB | add rA rB =>
    have hAB : q = rA ∨ q = rB := by simpa [regsRead] using hq
    refine ⟨false, ?_⟩
    by_cases h : rA = rB
    · obtain ⟨rfl, rfl⟩ : q = rA ∧ q = rB := by simpa [h] using hAB
      simp [regsRead, ShowsDifference, regsWritten]
    · obtain rfl | rfl := hAB <;> simp [regsRead, ShowsDifference, regsWritten, h, Ne.symm h]
  | cmp rA rB =>
    have hAB : q = rA ∨ q = rB := by simpa [regsRead] using hq
    have h : rA ≠ rB := by rintro rfl; simp_all
    obtain rfl | rfl := hAB <;> exact ⟨false, by simp [regsRead, ShowsDifference, h, h.symm]⟩
  | push r =>
    by_cases h7 : q = 7
    · subst h7
      exact ⟨false, by simp [regsRead, ShowsDifference, regsWritten]⟩
    · obtain rfl : q = r := by simpa [regsRead, h7] using hq
      exact ⟨false, _, _, by simp [regsRead], exec_push q _, exec_push q _,
        .inr (.inl ⟨0, by simp [h7, Ne.symm h7]⟩)⟩
  | call r =>
    by_cases h7 : q = 7
    · subst h7
      exact ⟨false, by simp [regsRead, ShowsDifference, regsWritten]⟩
    · obtain rfl : q = r := by simpa [regsRead, h7] using hq
      exact ⟨false, by simp [regsRead, ShowsDifference, regsWritten, h7]⟩
  | pop r =>
    obtain rfl : q = 7 := by simpa [regsRead] using hq
    refine ⟨false, ?_⟩
    by_cases hr : r = 7 <;> simp [regsRead, ShowsDifference, regsWritten, hr]
  | ret =>
    obtain rfl : q = 7 := by simpa [regsRead] using hq
    exact ⟨false, by simp [regsRead, ShowsDifference, regsWritten]⟩
  | jeq r =>
    obtain ⟨-, rfl⟩ : s.fl.getLsbD 0 = true ∧ q = r := by simpa [regsRead] using hq
    exact ⟨true, by simp [regsRead, ShowsDifference]⟩
  | jne r =>
    obtain ⟨-, rfl⟩ : s.fl.getLsbD 0 = false ∧ q = r := by simpa [regsRead] using hq
    exact ⟨false, by simp [regsRead, ShowsDifference]⟩

/-- Settles O16: both columns of R14, in both directions. The written values are those of the instructions' own
lemmas. -/
theorem registersReadAndWritten : Obligations.RegistersReadAndWritten := by
  refine ⟨fun i s u h => exec_sameRegsExcept h, exists_exec_changes_written, ?_, ?_, ?_⟩
  · intro s r rA rB imm
    exact ⟨by simp, by simp, by simp, by simp, fun hr => by simp [hr], by simp, by simp⟩
  · intro i s u q v hq h
    exact ⟨_, exec_setReg_of_unread v hq h, sameApartFrom_setReg u q _⟩
  · intro i s q hq hi
    obtain ⟨e, u, w, hq', hu, hw, hdiff⟩ := exec_onesState_showsDifference i s q hq hi
    exact ⟨onesState e, 0, u, w, hq', hu, hw, not_sameApartFrom hdiff⟩

end Sys2Proof.Machine

/-! ## Memory: the proofs of the statements of 20_memory.md (O18, O20, O33) -/

namespace Sys2Proof.Machine

/-! ### What a write and an instruction do to memory -/

/-- A write leaves every other cell as it was (R31). -/
theorem sameMemExcept_writeMem (s : State) (a v : Byte) : SameMemExcept [a] s (s.writeMem a v) :=
  fun b hb => readMem_writeMem_other s a b v (by simpa using hb)

/-- Settles O20, by the law of a read after a write; the reset memory lists no cell. -/
theorem memoryReadsTheLastWrite : Obligations.MemoryReadsTheLastWrite :=
  ⟨fun s a v => ⟨readMem_writeMem_same s a v, sameMemExcept_writeMem s a v, fun _ _ => rfl, rfl, rfl,
    ⟨rfl, rfl⟩, rfl⟩, fun _ => rfl⟩

/-- The one write an instruction makes to memory is that of PUSH or CALL, in the cell below the stack top (R32). -/
theorem exec_mem {i : Instr} {s u : State} (h : exec i s = .next u) :
    u.mem = s.mem ∨
      ((i.mnemonic = .push ∨ i.mnemonic = .call) ∧ ∃ v, u.mem = s.mem.write (s.reg 7 - 1) v) := by
  cases i with
  | push r => simp at h; subst h; exact .inr ⟨.inl rfl, _, rfl⟩
  | call r => simp at h; subst h; exact .inr ⟨.inr rfl, _, rfl⟩
  | _ => simp at h; subst h; exact .inl rfl

/-- A step that writes memory executes a PUSH or a CALL, whose byte stands at `pc` (R32). -/
theorem stepWith_mem {t : OpcodeTable} {s u : State} (h : stepWith t s = .next u) :
    u.mem = s.mem ∨
      ((s.readMem s.pc = t .push ∨ s.readMem s.pc = t .call) ∧ ∃ v, u.mem = s.mem.write (s.reg 7 - 1) v) := by
  obtain ⟨-, ⟨e, -, rfl⟩ | ⟨i, hd, he⟩⟩ := stepWith_next h
  · exact .inl rfl
  · obtain ⟨hop, -⟩ := decodeAtPc_eq_ok hd
    obtain hu | ⟨hi, hu⟩ := exec_mem he
    · exact .inl hu
    · exact .inr ⟨hi.imp (hop.trans <| congrArg t ·) (hop.trans <| congrArg t ·), hu⟩

/-- Settles O18: a step writes at most one cell, and the cells beside a written one keep their bytes. -/
theorem memoryIsWrittenByPushAndCallAlone : Obligations.MemoryIsWrittenByPushAndCallAlone := by
  intro t s u _ hstep a hne
  obtain hu | ⟨hop, v, hu⟩ := stepWith_mem hstep
  · exact absurd (congrArg (·.read a) hu) hne
  · refine ⟨?_, hop⟩
    by_contra ha
    have hread : u.mem.read a = s.mem.read a := by rw [hu, read_write, if_neg ha]
    exact hne hread

/-! ### The step after an instruction -/

/-- A step executes the row whose byte stands at `pc` when its operand bytes are legal (R62, R63). -/
theorem stepWith_of_row {t : OpcodeTable} {s : State} (ht : t.wellFormed = true) (hs : Running s) {m : Mnemonic}
    {i : Instr} (hop : s.readMem s.pc = t m)
    (ho : decodeOperands m (s.readMem (s.pc + 1)) (s.readMem (s.pc + 2)) = .ok i) : stepWith t s = exec i s :=
  stepWith_of_ok hs (decodeAtPc_of_row ht hop ho)

/-- A step at a byte that is no opcode latches it with `pc` and changes nothing else (R101, R104). -/
theorem stepWith_of_unsupported {t : OpcodeTable} {s : State} (hs : Running s) (h : ∀ m, t m ≠ s.readMem s.pc) :
    stepWith t s = .next (s.takeFault (.unsupportedOpcode (s.readMem s.pc) s.pc)) :=
  stepWith_of_error hs (decodeBytes_eq_unsupported.mpr ⟨lookup_eq_none.mpr h, rfl⟩)

/-- After any instruction but HLT a running core still runs (R64). -/
theorem running_of_exec {i : Instr} {s u : State} (hs : Running s) (hi : i ≠ .hlt) (h : exec i s = .next u) :
    Running u := by
  obtain ⟨hrun, hfault⟩ := hs
  exact ⟨by rw [exec_run h, if_neg hi, hrun], (exec_fault h).trans hfault⟩

/-- PUSH of a register other than R7 leaves its byte in the cell below the stack top, every other cell as it was, and
`pc` past its two bytes (R78). -/
theorem exec_push_cells (s : State) {r : Reg} (hr : r ≠ 7) :
    ∃ u, exec (.push r) s = .next u ∧ u.pc = s.pc + 2 ∧ u.readMem (s.reg 7 - 1) = s.reg r ∧
      SameMemExcept [s.reg 7 - 1] s u := by
  refine ⟨_, exec_push r s, rfl, by simp [hr], ?_⟩
  exact sameMemExcept_writeMem (s.setReg 7 (s.reg 7 - 1)) (s.reg 7 - 1) _

/-- Settles O33: after the PUSH the bytes at `pc` are the pushed one and the two that stood after it, and the next step
decodes them. -/
theorem pushedByteIsTheNextOpcode : Obligations.PushedByteIsTheNextOpcode := by
  intro t s r ht hs hop hb1 hr hsp
  obtain ⟨u, hexec, hpc, hpushed, hframe⟩ := exec_push_cells s hr
  have hoperand : decodeOperands .push (s.readMem (s.pc + 1)) (s.readMem (s.pc + 2)) = .ok (.push r) := by
    rw [decodeOperands, withReg_of_eq _ hb1]
  have hstep : stepWith t s = .next u := (stepWith_of_row ht hs hop hoperand).trans hexec
  have hu : Running u := running_of_exec hs (by simp) hexec
  rw [hsp] at hpushed hframe
  have hopcode : u.readMem u.pc = s.reg r := by rw [hpc, hpushed]
  have hnext1 : u.readMem (u.pc + 1) = s.readMem (s.pc + 3) := by
    rw [hpc, add_assoc]
    exact hframe (s.pc + 3) (by simp)
  have hnext2 : u.readMem (u.pc + 2) = s.readMem (s.pc + 4) := by
    rw [hpc, add_assoc]
    exact hframe (s.pc + 4) (by simp)
  refine ⟨u, hstep, fun i hi => ?_, fun hno => ?_⟩
  · exact stepWith_of_ok hu (by rw [decodeAtPc, hopcode, hnext1, hnext2, hi])
  · have hfault := stepWith_of_unsupported hu (by rwa [hopcode])
    rwa [hopcode, hpc] at hfault

end Sys2Proof.Machine

/-! ## Encoding: the proofs of the statements of 30_encoding.md (O22 to O27) -/

namespace Sys2Proof

/-! ### Operand bytes -/

/-- The operand bytes of an instruction (R46, R47). The opcode table plays no part in them. -/
def operandBytes (i : Instr) : List Byte := (encode OPC i).tail

/-- An encoding is the row's opcode byte and then the operand bytes (R45). -/
theorem encode_eq_cons (t : OpcodeTable) (i : Instr) : encode t i = t i.mnemonic :: operandBytes i := by
  cases i <;> rfl

theorem length_operandBytes (i : Instr) : (operandBytes i).length = i.mnemonic.length - 1 := by
  cases i <;> rfl

/-- R50, R51: a row's length is 1, 2 or 3. -/
theorem mnemonic_length_bounds (m : Mnemonic) : 1 ≤ m.length ∧ m.length ≤ 3 := by cases m <;> decide

/-- A register check goes on exactly when the whole byte, no bit of it dropped, is that of a register with which the
continuation answers (R48, R53). -/
theorem withReg_eq_ok_iff {α : Type} {b : Byte} {k : Reg → Except Byte α} {x : α} :
    withReg b k = .ok x ↔ ∃ r : Reg, regByte r = b ∧ k r = .ok x := by
  constructor
  · intro h
    obtain ⟨r, hr, hk⟩ := Machine.withReg_eq_ok h
    exact ⟨r, BitVec.eq_of_toNat_eq ((regByte_toNat r).trans hr.symm), hk⟩
  · rintro ⟨r, rfl, hk⟩
    rw [withReg_regByte, hk]

/-- The operand decoder answers an instruction exactly when it is of the row and the bytes the row takes are its operand
bytes. Both directions of the encoding rest on this. -/
theorem decodeOperands_eq_ok_iff {m : Mnemonic} {b1 b2 : Byte} {i : Instr} :
    decodeOperands m b1 b2 = .ok i ↔ i.mnemonic = m ∧ operandBytes i = [b1, b2].take (m.length - 1) := by
  constructor
  · intro h
    refine ⟨mnemonic_of_decodeOperands h, ?_⟩
    cases m with
    | ret | hlt =>
      cases h
      rfl
    | ldi | prn | push | pop | call | jmp | jeq | jne =>
      simp only [decodeOperands, withReg_eq_ok_iff, Except.ok.injEq] at h
      obtain ⟨r, rfl, rfl⟩ := h
      rfl
    | mul | add | cmp =>
      simp only [decodeOperands, withReg_eq_ok_iff, Except.ok.injEq] at h
      obtain ⟨rA, rfl, rB, rfl, rfl⟩ := h
      rfl
  · rintro ⟨rfl, h⟩
    cases i with
    | ret | hlt => rfl
    | _ =>
      cases h
      simp only [Instr.mnemonic, decodeOperands, withReg_regByte]

/-! ### Decoding a list of bytes -/

/-- The two bytes the decoder looks at hold every operand byte a row takes (R50). -/
theorem take_getD (tail : List Byte) {n : Nat} (hn : n ≤ 2) (hl : n ≤ tail.length) :
    [tail.getD 0 0#8, tail.getD 1 0#8].take n = tail.take n := by
  obtain rfl | rfl | rfl : n = 0 ∨ n = 1 ∨ n = 2 := by omega
  · rfl
  · obtain ⟨a, bs, rfl⟩ := List.exists_cons_of_length_pos hl
    rfl
  · match tail, hl with
    | a :: b :: bs, _ => rfl

/-- A row's byte and enough bytes after it decode as the row's operands do (R61, R62). -/
theorem decode_of_row {t : OpcodeTable} (ht : t.wellFormed = true) {m : Mnemonic} {tail : List Byte} {i : Instr}
    (hl : m.length ≤ tail.length + 1) (ho : decodeOperands m (tail.getD 0 0#8) (tail.getD 1 0#8) = .ok i) :
    decode t (t m :: tail) = .ok (i, tail.drop (m.length - 1)) := by
  have hd := decodeBytes_eq_ok.mpr ⟨m, lookup_byte ht m, ho⟩
  simp only [decode, lookup_byte ht, hd, if_neg (Nat.not_lt.mpr hl)]

/-- A first byte that is no opcode is rejected whatever follows (R50, R52). -/
theorem decode_of_no_row {t : OpcodeTable} {opcode : Byte} (bs : List Byte) (h : ∀ m, t m ≠ opcode) :
    decode t (opcode :: bs) = .error (.illegal (.unsupportedOpcode opcode)) := by
  simp only [decode, lookup_eq_none.mpr h]

/-- Settles O25: the row's byte finds the row, and the bytes the row takes are the operand bytes. -/
theorem decodeOfEncodeIsTheInstruction : Obligations.DecodeOfEncodeIsTheInstruction := by
  intro t i rest ht
  have hlen := length_operandBytes i
  have hmax := (mnemonic_length_bounds i.mnemonic).2
  have hl : i.mnemonic.length ≤ (operandBytes i ++ rest).length + 1 := by
    rw [List.length_append]
    omega
  have ho : operandBytes i = [(operandBytes i ++ rest).getD 0 0#8, (operandBytes i ++ rest).getD 1 0#8].take
      (i.mnemonic.length - 1) := by
    rw [take_getD _ (by omega) (by omega), ← hlen, List.take_left]
  rw [encode_eq_cons, List.cons_append, decode_of_row ht hl (decodeOperands_eq_ok_iff.mpr ⟨rfl, ho⟩), ← hlen,
    List.drop_left]

/-- Settles O26: the bytes the matched row takes are the operand bytes, and the rest is what stands after them. -/
theorem decodedBytesAreTheEncoding : Obligations.DecodedBytesAreTheEncoding := by
  intro t bs i rest h
  obtain ⟨opcode, tail, m, rfl, hrow, hl, ho, rfl⟩ := decode_eq_ok h
  obtain ⟨rfl, hbytes⟩ := decodeOperands_eq_ok_iff.mp ho
  have hmax := (mnemonic_length_bounds i.mnemonic).2
  rw [take_getD _ (by omega) (by omega)] at hbytes
  rw [encode_eq_cons, byte_of_lookup hrow, hbytes, List.cons_append, List.take_append_drop]

/-- Settles O23: the row of the first byte is the only one the decoder consults for the length. -/
theorem lengthIsAFunctionOfTheOpcode : Obligations.LengthIsAFunctionOfTheOpcode := by
  refine ⟨fun t m bs i rest ht h => ?_, fun t opcode bs h => decode_of_no_row bs h⟩
  obtain ⟨opcode, tail, n, hcons, hrow, hl, ho, rfl⟩ := decode_eq_ok h
  obtain ⟨rfl, rfl⟩ := List.cons.inj hcons
  obtain rfl : m = n := byte_injective ht (byte_of_lookup hrow).symm
  have hpos := (mnemonic_length_bounds m).1
  refine ⟨mnemonic_of_decodeOperands ho, ?_, mnemonic_length_bounds m⟩
  rw [List.length_drop]
  omega

/-! ### The register check -/

/-- A register check answers the first byte above 7 of its own byte and those its continuation checks, when the
continuation answers the first of the latter (R103). -/
theorem withReg_eq_error_iff {α : Type} {b e : Byte} {bs : List Byte} {k : Reg → Except Byte α}
    (hk : ∀ r, k r = .error e ↔ bs.find? (fun x => decide (7 < x.toNat)) = some e) :
    withReg b k = .error e ↔ (b :: bs).find? (fun x => decide (7 < x.toNat)) = some e := by
  by_cases hb : 7 < b.toNat
  · simp [withReg_of_ge k hb, hb]
  · rw [withReg_of_lt k (by omega), hk, List.find?_cons_of_neg (by simpa using hb)]

/-- The operand decoder stops at the first of the row's register operand bytes that is above 7 (R48, R56, R103). -/
theorem decodeOperands_eq_error_iff {m : Mnemonic} {b1 b2 e : Byte} :
    decodeOperands m b1 b2 = .error e ↔
      (registerOperandBytes m b1 b2).find? (fun x => decide (7 < x.toNat)) = some e := by
  cases m with
  | ret | hlt => simp [decodeOperands, registerOperandBytes]
  | ldi | prn | push | pop | call | jmp | jeq | jne =>
    rw [decodeOperands, registerOperandBytes]
    exact withReg_eq_error_iff fun _ => by simp
  | mul | add | cmp =>
    rw [decodeOperands, registerOperandBytes]
    exact withReg_eq_error_iff fun _ => withReg_eq_error_iff fun _ => by simp

/-- Settles O24: a row's own byte leaves the answer to its operands. -/
theorem registerOperandBytesAreChecked : Obligations.RegisterOperandBytesAreChecked := by
  intro t m b1 b2 ht
  refine ⟨?_, fun b => ?_⟩
  · calc (∃ i, decodeBytes t (t m) b1 b2 = .ok i)
      _ ↔ ∃ i, decodeOperands m b1 b2 = .ok i := by simp [decodeBytes_eq_ok, lookup_byte ht]
      _ ↔ operandsWellFormed m b1 b2 = true := decodeOperands_ok_iff m b1 b2
      _ ↔ ∀ b ∈ registerOperandBytes m b1 b2, b.toNat ≤ 7 := by simp [operandsWellFormed, isRegisterIndex]
  · simp [decodeBytes_eq_invalid, lookup_byte ht, decodeOperands_eq_error_iff]

/-! ### Bytes that are no opcode -/

/-- Of the 256 byte values all but the members of a list without repetition are outside it. -/
theorem length_bytes_not_mem {bytes : List Byte} (h : bytes.Nodup) :
    ((List.range 256).filter (fun n => decide (BitVec.ofNat 8 n ∉ bytes))).length = 256 - bytes.length := by
  have hnodup : (bytes.map BitVec.toNat).Nodup := h.map fun _ _ => BitVec.eq_of_toNat_eq
  have hperm : ((List.range 256).filter (fun n => decide (BitVec.ofNat 8 n ∈ bytes))).Perm
      (bytes.map BitVec.toNat) := by
    refine (List.perm_ext_iff_of_nodup (List.nodup_range.filter _) hnodup).mpr fun n => ?_
    simp only [List.mem_filter, List.mem_range, decide_eq_true_eq, List.mem_map]
    constructor
    · rintro ⟨hn, hmem⟩
      exact ⟨_, hmem, Nat.mod_eq_of_lt hn⟩
    · rintro ⟨b, hmem, rfl⟩
      exact ⟨b.isLt, by simpa using hmem⟩
  have hsplit := List.length_eq_length_filter_add (l := List.range 256) (fun n => decide (BitVec.ofNat 8 n ∈ bytes))
  rw [hperm.length_eq, List.length_map, List.length_range] at hsplit
  simp only [decide_not]
  omega

/-- Settles O22: a well-formed table takes 13 of the 256 byte values, and the lookup fails at exactly the others. -/
theorem illegalOpcodeBytes : Obligations.IllegalOpcodeBytes := by
  intro t ht
  have hnodup : (Mnemonic.all.map t).Nodup := of_decide_eq_true ht
  refine ⟨length_bytes_not_mem hnodup, fun opcode b1 b2 => ?_⟩
  rw [decodeBytes_eq_unsupported, lookup_eq_none]
  simp [mem_all]

/-! ### Samples -/

/-- Settles O27: the legal words are encodings under the default table, and the other two are rejected as it reads. -/
theorem sampleWordsDecode : Obligations.SampleWordsDecode := by
  have decodes (i : Instr) : decode OPC (encode OPC i ++ []) = .ok (i, []) :=
    decodeOfEncodeIsTheInstruction OPC i [] OPC_wellFormed
  refine ⟨OPC_wellFormed, decodes (.ldi 0 8), decodes (.mul 0 1), decodes (.push 7), decodes (.jeq 2), decodes .ret,
    decodes .hlt, by decide, decode_of_no_row [] fun m => ?_⟩
  cases m <;> decide

end Sys2Proof

/-! ## Dispatcher: the proofs of the statements of 40_dispatcher.md (O19, O28, O29, O32, O36, O37, O48) -/

namespace Sys2Proof

/-! ### Decoding three bytes -/

/-- The three bytes a step fetches hold every row, so the list decoder is never short of bytes and reads the instruction
the step's decoder reads (R47, R61). -/
theorem decodeBytes_eq_ok_iff_decode {t : OpcodeTable} {opcode b1 b2 : Byte} {i : Instr} :
    decodeBytes t opcode b1 b2 = .ok i ↔ ∃ rest, decode t [opcode, b1, b2] = .ok (i, rest) := by
  constructor
  · intro hd
    obtain ⟨m, hrow, -⟩ := decodeBytes_eq_ok.mp hd
    have hlen : ¬ [b1, b2].length + 1 < m.length := Nat.not_lt.mpr (mnemonic_length_bounds m).2
    refine ⟨[b1, b2].drop (m.length - 1), ?_⟩
    simp only [decode, hrow, if_neg hlen, List.getD_cons_zero, List.getD_cons_succ, hd]
  · rintro ⟨rest, h⟩
    obtain ⟨_, _, m, hcons, hrow, -, ho, -⟩ := decode_eq_ok h
    obtain ⟨rfl, rfl⟩ := List.cons.inj hcons
    exact decodeBytes_eq_ok.mpr ⟨m, hrow, ho⟩

/-- A table word is an instruction exactly when its three bytes decode to it. -/
theorem decodeTableWord_eq_some_iff {nbits w : Nat} {i : Instr} :
    decodeTableWord nbits w = some i ↔
      decodeBytes OPC (wordByte nbits w 0) (wordByte nbits w 1) (wordByte nbits w 2) = .ok i := by
  rw [decodeBytes_eq_ok_iff_decode, decodeTableWord, wordBytes]
  cases decode OPC [wordByte nbits w 0, wordByte nbits w 1, wordByte nbits w 2] with
  | error e => simp
  | ok p => simp [Prod.ext_iff]

end Sys2Proof

namespace Sys2Proof.Machine

/-! ### The fetch and the program counter -/

/-- Settles O28: three bytes always hold the whole instruction, so the list decoder reads what the step decodes. -/
theorem stepRunsTheDecodedInstruction : Obligations.StepRunsTheDecodedInstruction :=
  ⟨fun _ _ rest hs hd => stepWith_of_ok hs (decodeBytes_eq_ok_iff_decode.mpr ⟨rest, hd⟩), fun _ => rfl⟩

/-- Every instruction continues where its row of R66 says. -/
theorem exec_pc {i : Instr} {s u : State} (h : exec i s = .next u) : u.pc = nextPc i s := by
  cases i <;> simp at h <;> subst h <;> rfl

/-- Settles O19: a step either takes a fault, which leaves `pc`, or executes an instruction, which latches no fault. -/
theorem nextPcComesFromFourSources : Obligations.NextPcComesFromFourSources := by
  intro t s u hstep
  obtain ⟨⟨-, hfault⟩, ⟨e, -, rfl⟩ | ⟨i, hd, he⟩⟩ := stepWith_next hstep
  · exact .inl ⟨by simp [Faulted], rfl⟩
  · exact .inr ⟨fun hf => hf ((exec_fault he).trans hfault), i, hd, exec_pc he⟩

/-! ### A word placed where the step fetches -/

/-- The decoder finds at `pc` the three bytes of the word placed there (R33, R61). -/
theorem decodeAtPc_withFetchWord (t : OpcodeTable) (s : State) (nbits w : Nat) :
    decodeAtPc t (s.withFetchWord nbits w) =
      decodeBytes t (wordByte nbits w 0) (wordByte nbits w 1) (wordByte nbits w 2) := by
  obtain ⟨-, -, hpc, -⟩ := writeBytes_fields s s.pc (wordBytes nbits w)
  have hcell := readMem_writeBytes_at s s.pc (wordBytes nbits w) (by simp [wordBytes])
  have h0 : (s.writeBytes s.pc (wordBytes nbits w)).readMem s.pc = wordByte nbits w 0 := by
    simpa [wordBytes] using hcell 0 (by simp [wordBytes])
  have h1 : (s.writeBytes s.pc (wordBytes nbits w)).readMem (s.pc + 1) = wordByte nbits w 1 :=
    hcell 1 (by simp [wordBytes])
  have h2 : (s.writeBytes s.pc (wordBytes nbits w)).readMem (s.pc + 2) = wordByte nbits w 2 :=
    hcell 2 (by simp [wordBytes])
  rw [State.withFetchWord, decodeAtPc, hpc, h0, h1, h2]

/-- Placing a word writes no cell but the three at `pc`. -/
theorem sameMemExcept_withFetchWord (s : State) (nbits w : Nat) :
    SameMemExcept [s.pc, s.pc + 1, s.pc + 2] s (s.withFetchWord nbits w) := by
  intro a ha
  refine readMem_writeBytes_other s s.pc a (wordBytes nbits w) fun k hk => ?_
  simp only [List.mem_cons, List.not_mem_nil, or_false, not_or] at ha
  obtain ⟨h0, h1, h2⟩ := ha
  match k, hk with
  | 0, _ => simpa using h0
  | 1, _ => exact h1
  | 2, _ => exact h2

/-- Settles O29: the decoder reads the word's bytes at `pc`, and its answer is the table's on the same bytes. -/
theorem fetchWordIsTheNextInstruction : Obligations.FetchWordIsTheNextInstruction := by
  intro s nbits w hs
  obtain ⟨hregs, hfl, hpc, hrun, hfault, hout⟩ := writeBytes_fields s s.pc (wordBytes nbits w)
  have hu : Running (s.withFetchWord nbits w) := ⟨hrun.trans hs.1, hfault.trans hs.2⟩
  have hd := decodeAtPc_withFetchWord OPC s nbits w
  refine ⟨fun i hi => ?_, fun hnone => ?_, sameMemExcept_withFetchWord s nbits w,
    fun q _ => congrArg (·[q.val]) hregs, hfl, hpc, ⟨hrun, hfault⟩, hout⟩
  · exact stepWith_of_ok hu (hd.trans (decodeTableWord_eq_some_iff.mp hi))
  · cases hw : decodeBytes OPC (wordByte nbits w 0) (wordByte nbits w 1) (wordByte nbits w 2) with
    | error e => exact ⟨_, stepWith_of_error hu (hd.trans hw)⟩
    | ok i =>
      have hsome := decodeTableWord_eq_some_iff.mpr hw
      simp [hnone] at hsome

/-! ### Stopped and running cores -/

/-- A core that is not running has a reason (R60, R68). -/
theorem stopReason_of_not_running {s : State} (h : ¬ Running s) : ∃ why, stopReason s = some why :=
  Option.ne_none_iff_exists'.mp (mt (stopReason_eq_none s).mp h)

/-- A running core always takes a step, a fault's or an instruction's (R60). -/
theorem stepWith_of_running (t : OpcodeTable) {s : State} (h : Running s) : ∃ u, stepWith t s = .next u := by
  cases hd : decodeAtPc t s with
  | error e => exact ⟨_, stepWith_of_error h hd⟩
  | ok i => simpa only [stepWith_of_ok h hd] using exec_answers_next i s

/-- A state that no step leaves is the only one reached from it. -/
theorem Reaches.eq_of_fixed {t : OpcodeTable} {s u : State} (fixed : ∀ v, stepWith t s = .next v → v = s)
    (h : Reaches t s u) : u = s :=
  h.induct_kept (P := (· = s)) (fun _ w hv hw => fixed w (hv ▸ hw)) rfl

/-- A bounded run from a core that is not running takes no step (R68). -/
theorem runWith_of_not_running (t : OpcodeTable) (n : Nat) {s : State} (h : ¬ Running s) :
    ∃ why, runWith t n s = .stopped why s := by
  obtain ⟨why, hwhy⟩ := stopReason_of_not_running h
  exact ⟨why, runWith_of_stopped hwhy n⟩

/-- A bound of no steps leaves a running core as it is (D17). -/
theorem runWith_zero_of_running (t : OpcodeTable) {s : State} (h : Running s) : runWith t 0 s = .didNotFinish s := by
  simp [runWith, (stopReason_eq_none s).mpr h]

/-- Settles O32: whether the core steps is whether it has a reason to stop, and the step answers that reason. -/
theorem stepsExactlyWhileRunning : Obligations.StepsExactlyWhileRunning := by
  refine ⟨fun t s hs => stepWith_of_running t hs, fun t s hhalt hfault => ?_, fun t s record hrecord => ?_,
    fun t s u hs hr => hr.eq_of_fixed fun v hv => absurd (stepWith_next hv).1 hs,
    fun t s n hs => runWith_of_not_running t n hs⟩
  · have hnone : s.fault = none := not_not.mp hfault
    have hrun : s.run = false := hhalt
    exact stepWith_of_stopped (by simp [stopReason, hnone, hrun])
  · exact stepWith_of_stopped (by simp [stopReason, hrecord])

/-! ### Bounded runs -/

/-- A running core whose step leaves it as it is never comes to an end (R67). -/
theorem runWith_of_step_to_itself {t : OpcodeTable} {s : State} (hs : Running s) (h : stepWith t s = .next s) (n : Nat) :
    runWith t n s = .didNotFinish s := by
  induction n with
  | zero => exact runWith_zero_of_running t hs
  | succ n ih => rw [runWith_of_step h, ih]

/-- Settles O36: the JMP's step leaves the running state as it is, so it is the only state reached. -/
theorem jumpToItselfRunsForEver : Obligations.JumpToItselfRunsForEver := by
  intro t s r ht hs hop hb1 hpc
  have hoperand : decodeOperands .jmp (s.readMem (s.pc + 1)) (s.readMem (s.pc + 2)) = .ok (.jmp r) := by
    rw [decodeOperands, withReg_of_eq _ hb1]
  have hexec : exec (.jmp r) s = .next s := by
    rw [exec_jmp, hpc]
    rfl
  have hstep : stepWith t s = .next s := (stepWith_of_row ht hs hop hoperand).trans hexec
  refine ⟨fun u hr hfaulted => ?_, runWith_of_step_to_itself hs hstep⟩
  obtain rfl : u = s := hr.eq_of_fixed fun v hv => by simpa [hstep, eq_comm] using hv
  exact hfaulted hs.2

/-- A run from a core that is not running reports that core's own reason, in its own state. -/
theorem stopReason_of_runWith {t : OpcodeTable} {s u : State} {n : Nat} {why : Fault} (hs : ¬ Running s)
    (h : runWith t n s = .stopped why u) : u = s ∧ stopReason s = some why := by
  obtain ⟨why', hwhy⟩ := stopReason_of_not_running hs
  obtain ⟨rfl, rfl⟩ : why' = why ∧ s = u := by simpa [runWith_of_stopped hwhy] using h
  exact ⟨rfl, hwhy⟩

/-- A run that reports a stop reached the state it reports by steps, that state has the reported reason to stop, and any
larger bound reports the same (R64, R93). -/
theorem runWith_eq_stopped {t : OpcodeTable} {s u : State} {n : Nat} {why : Fault}
    (h : runWith t n s = .stopped why u) :
    Reaches t s u ∧ stopReason u = some why ∧ ∀ k, runWith t (n + k) s = .stopped why u := by
  induction n generalizing s with
  | zero =>
    have hs : ¬ Running s := fun hs => by simp [runWith_zero_of_running t hs] at h
    obtain ⟨rfl, hwhy⟩ := stopReason_of_runWith hs h
    exact ⟨.here u, hwhy, fun _ => runWith_of_stopped hwhy _⟩
  | succ n ih =>
    by_cases hs : Running s
    · obtain ⟨v, hstep⟩ := stepWith_of_running t hs
      rw [runWith_of_step hstep] at h
      obtain ⟨hreach, hwhy, hmore⟩ := ih h
      refine ⟨Reaches.trans (.step s s v (.here s) hstep) hreach, hwhy, fun k => ?_⟩
      rw [Nat.add_right_comm, runWith_of_step hstep, hmore]
    · obtain ⟨rfl, hwhy⟩ := stopReason_of_runWith hs h
      exact ⟨.here u, hwhy, fun _ => runWith_of_stopped hwhy _⟩

/-- Settles O37, by induction on the bound: the reported state has a reason to stop, so it is not running. -/
theorem stoppedRunIsStable : Obligations.StoppedRunIsStable := by
  intro t s u n why h
  obtain ⟨hreach, hwhy, hmore⟩ := runWith_eq_stopped h
  refine ⟨hreach, fun hu => ?_, stepWith_of_stopped hwhy, hmore⟩
  simp [(stopReason_eq_none u).mpr hu] at hwhy

/-! ### Run of a started machine -/

/-- A Run and a step of the core leave a started machine whose core is stopped as it is (R68, D14). -/
theorem move_of_stopped (t : OpcodeTable) {s : State} (hs : ¬ Running s) {m : Move} (hm : m = .run ∨ m = .coreStep) :
    Session.move t m (.started s) = .started s := by
  obtain rfl | rfl := hm
  · simp [Session.move, runFrom_of_stopped hs]
  · obtain ⟨why, hstep⟩ := stepWith_of_not_running t hs
    simp [Session.move, hstep]

/-- A stopped core stays as it is under any sequence of Runs and steps (R68, D14). -/
theorem moves_of_stopped (t : OpcodeTable) {s : State} (hs : ¬ Running s) (ms : List Move)
    (hms : ∀ m ∈ ms, m = .run ∨ m = .coreStep) : Session.moves t ms (.started s) = .started s := by
  induction ms with
  | nil => rfl
  | cons m ms ih =>
    obtain ⟨hm, hms⟩ := List.forall_mem_cons.mp hms
    rw [moves_cons, move_of_stopped t hs hm, ih hms]

/-- Settles O48: no move of the host or the core leaves a stopped core, and Run of a running one is refused. -/
theorem runOfAStoppedMachineReturnsAtOnce : Obligations.RunOfAStoppedMachineReturnsAtOnce :=
  ⟨fun t _ hs => ⟨runFrom_of_stopped hs, fun n => runWith_of_not_running t n hs, moves_of_stopped t hs⟩,
    fun _ hs => runFrom_of_running hs, rfl⟩

end Sys2Proof.Machine

/-! ## Data movement: the proofs of the statements of 41_data_movement.md (O1, O2) -/

namespace Sys2Proof.Machine

/-! ### The step at a row whose first operand is a register -/

/-- A step at a row whose operands do not decode latches the offending byte with `pc` and changes nothing else (R48, R102,
R104). -/
theorem stepWith_of_row_error {t : OpcodeTable} {s : State} (ht : t.wellFormed = true) (hs : Running s) {m : Mnemonic}
    {b : Byte} (hop : s.readMem s.pc = t m)
    (ho : decodeOperands m (s.readMem (s.pc + 1)) (s.readMem (s.pc + 2)) = .error b) :
    stepWith t s = .next (s.takeFault (.invalidRegisterIndex (t m) b s.pc)) :=
  stepWith_of_error hs (decodeAtPc_of_row_error ht hop ho)

/-- A step at a row whose one register check is on the byte after the opcode: it executes the row with the register that
byte names, or latches a byte above 7 (R48, R56). -/
theorem stepWith_of_register_row {t : OpcodeTable} {s : State} (ht : t.wellFormed = true) (hs : Running s)
    {m : Mnemonic} {i : Reg → Instr} (hop : s.readMem s.pc = t m)
    (hrow : decodeOperands m (s.readMem (s.pc + 1)) (s.readMem (s.pc + 2)) =
      withReg (s.readMem (s.pc + 1)) fun r => .ok (i r)) :
    (∀ r : Reg, (s.readMem (s.pc + 1)).toNat = r.val → stepWith t s = exec (i r) s) ∧
    (7 < (s.readMem (s.pc + 1)).toNat → stepWith t s =
      .next { s with fault := some (.invalidRegisterIndex (t m) (s.readMem (s.pc + 1)) s.pc) }) :=
  ⟨fun _ hb1 => stepWith_of_row ht hs hop (hrow.trans (withReg_of_eq _ hb1)),
    fun hb1 => stepWith_of_row_error ht hs hop (hrow.trans (withReg_of_ge _ hb1))⟩

/-- A row that decodes its first operand byte as a register, and no other byte, steps as R46's F1 says. -/
theorem stepsToOneRegister_of_row {m : Mnemonic} {i : Reg → Instr}
    (hrow : ∀ b1 b2, decodeOperands m b1 b2 = withReg b1 fun r => .ok (i r)) : StepsToOneRegister m i :=
  fun _ _ ht hs hop => stepWith_of_register_row ht hs hop (hrow _ _)

/-! ### LDI and PRN -/

/-- Settles O1: LDI is one register write and an advance, and no check is made on its immediate byte (R49). -/
theorem ldiLoadsTheImmediate : Obligations.LdiLoadsTheImmediate := by
  refine ⟨fun s r imm => ?_, fun _ _ ht hs hop => stepWith_of_register_row ht hs hop rfl⟩
  have hexec := exec_ldi r imm s
  exact ⟨_, hexec, reg_setReg_same s r imm, exec_pc hexec, exec_sameRegsExcept hexec, fun _ _ => rfl, rfl, ⟨rfl, rfl⟩, rfl⟩

/-- Settles O2: PRN is one emit and an advance. -/
theorem prnEmitsTheRegister : Obligations.PrnEmitsTheRegister := by
  refine ⟨fun s r => ?_, stepsToOneRegister_of_row fun _ _ => rfl⟩
  have hexec := exec_prn r s
  exact ⟨_, hexec, rfl, exec_pc hexec, exec_sameRegsExcept hexec, fun _ _ => rfl, rfl, rfl, rfl⟩

end Sys2Proof.Machine

/-! ## ALU: the proofs of the statements of 42_alu.md (O3, O4, O5, O45) -/

namespace Sys2Proof.Machine

/-! ### The three operations -/

theorem aluAdd_toNat (a b : Byte) : (aluAdd a b).toNat = (a.toNat + b.toNat) % 256 := BitVec.toNat_add a b

theorem aluMul_toNat (a b : Byte) : (aluMul a b).toNat = (a.toNat * b.toNat) % 256 := BitVec.toNat_mul a b

theorem aluEq_iff (a b : Byte) : aluEq a b = true ↔ a = b := beq_iff_eq

/-- 255 is the byte of -1 (R74). -/
theorem aluAdd_255 (a : Byte) : aluAdd a 255 = a - 1 := (sub_eq_add_neg a 1).symm

/-- Settles O45: the ALU's operations are the byte's own, and their values are those modulo 2^8. -/
theorem aluOperations : Obligations.AluOperations :=
  fun a b => ⟨aluAdd_toNat a b, aluMul_toNat a b, aluEq_iff a b⟩

/-! ### The step at a row of two registers -/

/-- A row that decodes both its operand bytes as registers, the first before the second, steps as R46's F2 says. -/
theorem stepsToTwoRegisters_of_row {m : Mnemonic} {i : Reg → Reg → Instr}
    (hrow : ∀ b1 b2, decodeOperands m b1 b2 = withReg b1 fun rA => withReg b2 fun rB => .ok (i rA rB)) :
    StepsToTwoRegisters m i := by
  intro t s ht hs hop
  refine ⟨fun rA rB hb1 hb2 => stepWith_of_row ht hs hop ?_, fun hb1 => stepWith_of_row_error ht hs hop ?_,
    fun rA hb1 hb2 => stepWith_of_row_error ht hs hop ?_⟩
  · rw [hrow, withReg_of_eq _ hb1, withReg_of_eq _ hb2]
  · rw [hrow, withReg_of_ge _ hb1]
  · rw [hrow, withReg_of_eq _ hb1, withReg_of_ge _ hb2]

/-! ### MUL and ADD -/

/-- Settles O3: MUL is one register write of the ALU's product and an advance. -/
theorem mulMultipliesModulo256 : Obligations.MulMultipliesModulo256 := by
  refine ⟨fun s rA rB => ?_, stepsToTwoRegisters_of_row fun _ _ => rfl⟩
  have hexec := exec_mul rA rB s
  refine ⟨_, hexec, ?_, exec_pc hexec, exec_sameRegsExcept hexec, fun _ _ => rfl, rfl, ⟨rfl, rfl⟩, rfl⟩
  rw [reg_setPc, reg_setReg_same]
  exact aluMul_toNat _ _

/-- Settles O4: ADD is one register write of the ALU's sum and an advance. -/
theorem addAddsModulo256 : Obligations.AddAddsModulo256 := by
  refine ⟨fun s rA rB => ?_, stepsToTwoRegisters_of_row fun _ _ => rfl⟩
  have hexec := exec_add rA rB s
  refine ⟨_, hexec, ?_, exec_pc hexec, fun hB => ?_, exec_sameRegsExcept hexec, fun _ _ => rfl, rfl, ⟨rfl, rfl⟩, rfl⟩
  · rw [reg_setPc, reg_setReg_same]
    exact aluAdd_toNat _ _
  · rw [reg_setPc, reg_setReg_same, hB]
    exact aluAdd_255 _

/-! ### CMP -/

/-- Equal is sticky over a run (R17, R75). -/
theorem Reaches.keeps_equal {t : OpcodeTable} {s v : State} (h : Reaches t s v) (hs : s.fl.getLsbD 0 = true) :
    v.fl.getLsbD 0 = true :=
  h.induct_kept (P := fun v => v.fl.getLsbD 0 = true) (fun _ _ => stepWith_keeps_equal) hs

/-- Settles O5: CMP is one write of `FL` and an advance, and Equal, once set, is set when a later branch reads it. -/
theorem cmpOnlyEverSetsEqual : Obligations.CmpOnlyEverSetsEqual := by
  refine ⟨fun s rA rB => ?_, stepsToTwoRegisters_of_row fun _ _ => rfl, fun t s v r hreach hs => ?_⟩
  · have hexec := exec_cmp rA rB s
    refine ⟨_, hexec, fun heq => ?_, fun hne => if_neg hne, exec_pc hexec, exec_sameRegsExcept hexec,
      fun _ _ => rfl, ⟨rfl, rfl⟩, rfl⟩
    rw [setPc_fl, setFl_fl, if_pos heq]
    refine ⟨by simp, fun k hk _ => ?_⟩
    have hk0 : k ≠ 0 := by omega
    simp [hk0]
  · have hv := hreach.keeps_equal hs
    exact ⟨⟨_, exec_jeq r v, (exec_pc (exec_jeq r v)).trans (if_pos hv)⟩,
      _, exec_jne r v, (exec_pc (exec_jne r v)).trans (if_pos hv)⟩

end Sys2Proof.Machine

/-! ## Stack: the proofs of the statements of 43_stack.md (O6, O7, O34) -/

namespace Sys2Proof.Machine

/-! ### PUSH and POP -/

/-- Settles O6: PUSH is a write of `SP`, a store at the written `SP` and an advance. -/
theorem pushStoresBelowTheStackTop : Obligations.PushStoresBelowTheStackTop := by
  refine ⟨fun s r => ?_, stepsToOneRegister_of_row fun _ _ => rfl⟩
  have hexec := exec_push r s
  exact ⟨_, hexec, reg_setReg_same s 7 _, readMem_writeMem_same _ _ _, exec_pc hexec, exec_sameRegsExcept hexec,
    sameMemExcept_writeMem (s.setReg 7 (s.reg 7 - 1)) _ _, rfl, ⟨rfl, rfl⟩, rfl⟩

/-- Settles O7: POP is two register writes, the second of `SP`, and an advance. For R7 the second is computed from the
first (D7). -/
theorem popLoadsTheStackTop : Obligations.PopLoadsTheStackTop := by
  refine ⟨fun s r => ?_, stepsToOneRegister_of_row fun _ _ => rfl⟩
  have hexec := exec_pop r s
  refine ⟨_, hexec, fun hr => ?_, fun hr => ?_, exec_pc hexec, exec_sameRegsExcept hexec, fun _ _ => rfl, rfl,
    ⟨rfl, rfl⟩, rfl⟩
  · rw [reg_setPc, reg_setPc, reg_setReg_other _ _ _ _ hr, reg_setReg_same, reg_setReg_same, if_neg hr]
    exact ⟨rfl, rfl⟩
  · rw [reg_setPc, reg_setReg_same, if_pos hr]

/-! ### PUSH followed by POP -/

/-- POP of the register just pushed gives every register its old value back: it loads the byte PUSH stored, and moves `SP`
up by the one PUSH moved it down (R78, R79). -/
theorem reg_of_push_then_pop {s u v : State} {r : Reg} (hpush : exec (.push r) s = .next u)
    (hpop : exec (.pop r) u = .next v) (q : Reg) : v.reg q = s.reg q := by
  by_cases hq : q = r ∨ q = 7
  · obtain rfl := Host.Outcome.next.inj ((exec_push r s).symm.trans hpush)
    obtain rfl := Host.Outcome.next.inj ((exec_pop r _).symm.trans hpop)
    by_cases hr : r = 7
    · obtain rfl : q = 7 := by simpa [hr] using hq
      simp [hr]
    · obtain rfl | rfl := hq <;> simp [hr]
  · obtain ⟨hqr, hq7⟩ := not_or.mp hq
    have hframePop : v.reg q = u.reg q := exec_sameRegsExcept hpop q (by simp [regsWritten, hqr, hq7])
    exact hframePop.trans (exec_sameRegsExcept hpush q (by simp [regsWritten, hq7]))

/-- Settles O34: the store misses the two bytes of the POP, so the step after the PUSH is that POP. -/
theorem pushThenPopRoundTrip : Obligations.PushThenPopRoundTrip := by
  intro t s r ht hs hpushOp hpushReg hpopOp hpopReg hmissOp hmissReg
  obtain ⟨hpush, hpushStep⟩ := pushStoresBelowTheStackTop
  obtain ⟨hpop, hpopStep⟩ := popLoadsTheStackTop
  obtain ⟨u, hu, -, -, hpcU, -, hmemU, hflU, ⟨hrunU, hfaultU⟩, houtU⟩ := hpush s r
  obtain ⟨v, hv, -, -, hpcV, -, hmemV, hflV, ⟨hrunV, hfaultV⟩, houtV⟩ := hpop u r
  have hpopOpU : u.readMem u.pc = t .pop := by
    rw [hpcU, hmemU _ (by simpa using hmissOp.symm), hpopOp]
  have hpopRegU : (u.readMem (u.pc + 1)).toNat = r.val := by
    have hnext : u.pc + 1 = s.pc + 3 := by rw [hpcU, add_assoc]; rfl
    rw [hnext, hmemU _ (by simpa using hmissReg.symm), hpopReg]
  have hstepU : stepWith t s = .next u := ((hpushStep t s ht hs hpushOp).1 r hpushReg).trans hu
  have hstepV : stepWith t u = .next v :=
    ((hpopStep t u ht (running_of_exec hs (by simp) hu) hpopOpU).1 r hpopRegU).trans hv
  refine ⟨u, v, hstepU, hstepV, reg_of_push_then_pop hu hv, ?_, fun a ha => (hmemV a (by simp)).trans (hmemU a ha),
    hflV.trans hflU, ⟨hrunV.trans hrunU, hfaultV.trans hfaultU⟩, houtV.trans houtU⟩
  rw [hpcV, hpcU, add_assoc]
  rfl

end Sys2Proof.Machine

/-! ## Control transfer: the proofs of the statements of 44_control_transfer.md (O8 to O12, O35) -/

namespace Sys2Proof.Machine

/-! ### CALL and RET -/

/-- Settles O8: CALL is a write of `SP`, a store of the return address at the written `SP` and a write of `pc`. -/
theorem callPushesTheReturnAddress : Obligations.CallPushesTheReturnAddress := by
  refine ⟨fun s r => ?_, stepsToOneRegister_of_row fun _ _ => rfl⟩
  have hexec := exec_call r s
  exact ⟨_, hexec, reg_setReg_same s 7 _, readMem_writeMem_same _ _ _, exec_pc hexec, exec_sameRegsExcept hexec,
    sameMemExcept_writeMem (s.setReg 7 (s.reg 7 - 1)) _ _, rfl, ⟨rfl, rfl⟩, rfl⟩

/-- Settles O9: RET is a write of `SP` and a write of `pc`, and its row has no operand byte to check. -/
theorem retReturnsToTheStackTop : Obligations.RetReturnsToTheStackTop := by
  refine ⟨fun s => ?_, fun _ _ ht hs hop => stepWith_of_row ht hs hop rfl⟩
  have hexec := exec_ret s
  exact ⟨_, hexec, exec_pc hexec, reg_setReg_same s 7 _, exec_sameRegsExcept hexec, fun _ _ => rfl, rfl, ⟨rfl, rfl⟩, rfl⟩

/-! ### JMP, JEQ and JNE -/

/-- A write of `pc` leaves every other item of the state as it was: the frame JMP, JEQ and JNE share. -/
theorem setPc_frame (s : State) (v : Byte) :
    SameRegsExcept [] s (s.setPc v) ∧ SameMemExcept [] s (s.setPc v) ∧ (s.setPc v).fl = s.fl ∧
      SameStatus s (s.setPc v) ∧ (s.setPc v).out = s.out :=
  ⟨fun _ _ => rfl, fun _ _ => rfl, rfl, ⟨rfl, rfl⟩, rfl⟩

/-- Writing `pc` with the value it has changes no state. -/
theorem setPc_of_eq {s : State} {v : Byte} (h : v = s.pc) : s.setPc v = s := by
  subst h
  rfl

/-- Settles O10: JMP is one write of `pc`. -/
theorem jmpGoesToTheRegister : Obligations.JmpGoesToTheRegister :=
  ⟨fun s r => ⟨_, exec_jmp r s, setPc_pc s _, setPc_of_eq, setPc_frame s _⟩, stepsToOneRegister_of_row fun _ _ => rfl⟩

/-- Settles O11: JEQ is one write of `pc`, and its row checks the register before Equal is looked at (D19). -/
theorem jeqBranchesWhenEqualIsSet : Obligations.JeqBranchesWhenEqualIsSet := by
  refine ⟨fun s r => ?_, stepsToOneRegister_of_row fun _ _ => rfl⟩
  have hexec := exec_jeq r s
  have hpc := exec_pc hexec
  exact ⟨_, hexec, fun hset => hpc.trans (if_pos hset),
    fun hclear => hpc.trans (if_neg (ne_true_of_eq_false hclear)), setPc_frame s _⟩

/-- Settles O12: JNE is JEQ with the two targets exchanged, and its row makes the same check (D19). -/
theorem jneBranchesWhenEqualIsClear : Obligations.JneBranchesWhenEqualIsClear := by
  refine ⟨fun s r => ?_, stepsToOneRegister_of_row fun _ _ => rfl⟩
  have hexec := exec_jne r s
  have hpc := exec_pc hexec
  exact ⟨_, hexec, fun hclear => hpc.trans (if_neg (ne_true_of_eq_false hclear)),
    fun hset => hpc.trans (if_pos hset), setPc_frame s _⟩

/-! ### CALL, then RET -/

/-- Settles O35. The return address stands at the `SP` that CALL left, one below the old one: a RET that finds both as they
were left takes `pc` from there and moves `SP` back up by one. In the two-step clause CALL's store misses the target's
cell, so the RET at the target is the next step. -/
theorem callThenRetReturns : Obligations.CallThenRetReturns := by
  intro t s r ht hs hcallOp hcallReg
  obtain ⟨hcall, hcallStep⟩ := callPushesTheReturnAddress
  obtain ⟨hret, hretStep⟩ := retReturnsToTheStackTop
  obtain ⟨u, hu, hspU, hpushed, hpcU, hregsU, hmemU, hflU, ⟨hrunU, hfaultU⟩, houtU⟩ := hcall s r
  have hreturn : u.readMem (u.reg 7) = s.pc + 2 := by rw [hspU, hpushed]
  have hspBack : u.reg 7 + 1 = s.reg 7 := by rw [hspU, sub_add_cancel]
  refine ⟨u, ((hcallStep t s ht hs hcallOp).1 r hcallReg).trans hu, ?_, ?_⟩
  · intro w _ hw hretOp hspW hcellW
    obtain ⟨v, hv, hpcV, hspV, -⟩ := hret w
    refine ⟨v, (hretStep t w ht hw hretOp).trans hv, ?_, ?_⟩
    · rw [hpcV, hspW, hcellW, hreturn]
    · rw [hspV, hspW, hspBack]
  · intro hr7 hretOp hmiss
    obtain ⟨v, hv, hpcV, hspV, hregsV, hmemV, hflV, ⟨hrunV, hfaultV⟩, houtV⟩ := hret u
    have hretOpU : u.readMem u.pc = t .ret := by
      rw [hpcU, if_neg hr7, hmemU _ (by simpa using hmiss), hretOp]
    have hstepV : stepWith t u = .next v :=
      (hretStep t u ht (running_of_exec hs (by simp) hu) hretOpU).trans hv
    refine ⟨v, hstepV, hpcV.trans hreturn, fun q => ?_, fun a ha => (hmemV a (by simp)).trans (hmemU a ha),
      hflV.trans hflU, ⟨hrunV.trans hrunU, hfaultV.trans hfaultU⟩, houtV.trans houtU⟩
    by_cases hq : q = 7
    · rw [hq, hspV, hspBack]
    · rw [hregsV q (by simpa using hq), hregsU q (by simpa using hq)]

end Sys2Proof.Machine

/-! ## System: the proof of the statement of 45_system.md (O13) -/

namespace Sys2Proof.Machine

/-- A halted core does not meet the precondition of a step (R60). -/
theorem Halted.not_running {s : State} (h : Halted s) : ¬ Running s :=
  fun ⟨hrun, _⟩ => ne_true_of_eq_false h hrun

/-- HLT leaves a running core halted and not faulted (R86). -/
theorem halted_of_exec_hlt {s u : State} (hs : Running s) (h : exec .hlt s = .next u) : Halted u ∧ ¬ Faulted u :=
  ⟨(exec_run h).trans (if_pos rfl), not_not.mpr ((exec_fault h).trans hs.2)⟩

/-- Settles O13: HLT writes `RUN` and `pc` alone; the core it leaves is halted, and a halted core takes no step; and a step
that clears `RUN` decoded HLT. -/
theorem hltEndsTheRun : Obligations.HltEndsTheRun := by
  obtain ⟨-, noStepWhenHalted, -, onlyItselfReached, -⟩ := stepsExactlyWhileRunning
  refine ⟨fun s => ?_, fun _ _ ht hs hop => stepWith_of_row ht hs hop rfl, fun t s u ht hstep hrun => ?_⟩
  · have hexec := exec_hlt s
    refine ⟨_, hexec, rfl, exec_pc hexec, exec_sameRegsExcept hexec, fun _ _ => rfl, rfl, exec_fault hexec, rfl,
      fun hs t => ?_, rfl⟩
    obtain ⟨hhalted, hnotFaulted⟩ := halted_of_exec_hlt hs hexec
    exact ⟨noStepWhenHalted t _ hhalted hnotFaulted, fun v hv => onlyItselfReached t _ v hhalted.not_running hv⟩
  · exact (decodeAtPc_eq_hlt ht).mp ((stepWith_run hstep).mp hrun)

end Sys2Proof.Machine

/-! ## Interfaces: the proofs of the statements of 50_interfaces.md (O39, O40, O42, O46, O47) -/

namespace Sys2Proof.Machine

/-! ### Load -/

/-- Writing bytes from an address on leaves all but memory as it was. -/
theorem writeBytes_frame (s : State) (a : Byte) (bs : List Byte) :
    SameRegsExcept [] s (s.writeBytes a bs) ∧ (s.writeBytes a bs).fl = s.fl ∧ (s.writeBytes a bs).pc = s.pc ∧
      SameStatus s (s.writeBytes a bs) ∧ (s.writeBytes a bs).out = s.out := by
  obtain ⟨hregs, hfl, hpc, hrun, hfault, hout⟩ := writeBytes_fields s a bs
  exact ⟨fun q _ => congrArg (·[q.val]) hregs, hfl, hpc, ⟨hrun, hfault⟩, hout⟩

/-- Bytes written from address 0 on leave the cells past them as they were. -/
theorem readMem_writeBytes_past (s : State) {bs : List Byte} {a : Byte} (h : bs.length ≤ a.toNat) :
    (s.writeBytes 0#8 bs).readMem a = s.readMem a := by
  refine readMem_writeBytes_other s 0#8 a bs fun k hk e => ?_
  have haddr : a.toNat = k := by
    rw [e, BitVec.zero_add, BitVec.toNat_ofNat, Nat.mod_eq_of_lt (by omega)]
  omega

/-- Settles O39: a Load is the writing of the image from address 0 into the reset state. -/
theorem loadPlacesTheImage : Obligations.LoadPlacesTheImage := by
  intro image hl
  refine ⟨_, load_afterReset hl, fun k hk => ?_, fun a ha => ?_, writeBytes_frame State.reset 0#8 image⟩
  · rw [← BitVec.zero_add (BitVec.ofNat 8 k)]
    exact readMem_writeBytes_at State.reset 0#8 image hl k hk
  · exact readMem_writeBytes_past State.reset ha

/-- Settles O40, by the three answers of a Load that is no success. -/
theorem loadFailsOutsideItsContract : Obligations.LoadFailsOutsideItsContract :=
  ⟨fun _ h => load_too_long h, fun _ _ n hl => boot_too_long hl n, fun _ _ => load_not_afterReset⟩

/-- Settles O42: the loaded state is the reset state with the image written, which has the invariant. -/
theorem invariantHoldsAfterLoad : Obligations.InvariantHoldsAfterLoad := by
  intro t image h h' hload
  obtain ⟨-, hreset, hloaded⟩ := load_ok hload
  exact ⟨hreset, _, hloaded, inv_writeBytes_reset t 0#8 image⟩

/-! ### Load at most once between two Resets -/

/-- A machine that does not stand directly after Reset refuses every Load; an image that fits, for that reason (R92, D10). -/
theorem load_refused (image : List Byte) {h : Session} (hh : h ≠ .afterReset) :
    ∃ why, load image h = .error why ∧ (image.length ≤ 256 → why = .loadNotAfterReset) := by
  by_cases hl : image.length ≤ 256
  · exact ⟨_, load_not_afterReset hl hh, fun _ => rfl⟩
  · exact ⟨_, load_too_long h (not_le.mp hl), fun hle => absurd hle hl⟩

/-- No move but Reset leads to a machine that stands directly after Reset. -/
theorem move_ne_afterReset (t : OpcodeTable) {m : Move} {h : Session} (hm : m ≠ .reset) (hh : h ≠ .afterReset) :
    h.move t m ≠ .afterReset := by
  obtain ⟨hreset, -⟩ | ⟨_, -, -, -, e⟩ | ⟨-, -, e⟩ | ⟨_, -, -, e⟩ | ⟨_, _, -, -, -, e⟩ | ⟨_, -, -, -, e⟩ | ⟨-, e⟩ |
    ⟨-, e⟩ := move_cases t m h
  · exact absurd hreset hm
  all_goals simp [e, hh]

/-- After a Run and before the next Reset (R90, R93): the machine is started, or needs Reset for a later transaction that
failed or was refused. -/
def Session.AfterRun (h : Session) : Prop := h = .needsReset ∨ ∃ s, h = .started s

theorem Session.AfterRun.ne_afterReset {h : Session} (hh : h.AfterRun) : h ≠ .afterReset := by
  obtain rfl | ⟨s, rfl⟩ := hh <;> simp

theorem move_run_of_ok (t : OpcodeTable) {h : Session} {s : State} (e : runFrom h = .ok s) :
    h.move t .run = .started s := by
  simp [Session.move, e]

/-- Every move but Reset keeps a machine after its Run: a Load would have to stand directly after Reset. -/
theorem move_keeps_afterRun (t : OpcodeTable) {m : Move} {h : Session} (hm : m ≠ .reset) (hh : h.AfterRun) :
    (h.move t m).AfterRun := by
  obtain ⟨hreset, -⟩ | ⟨_, -, -, hfresh, -⟩ | ⟨-, -, e⟩ | ⟨s, -, -, e⟩ | ⟨_, u, -, -, -, e⟩ | ⟨_, -, -, -, e⟩ |
    ⟨-, e⟩ | ⟨-, e⟩ := move_cases t m h
  · exact absurd hreset hm
  · exact absurd hfresh hh.ne_afterReset
  · exact .inr ⟨State.reset, e⟩
  · exact .inr ⟨s, e⟩
  · exact .inr ⟨u, e⟩
  · rwa [e]
  · rwa [e]
  · exact .inl e

/-- A further Run before the next Reset, where it is not refused, is of a core that has stopped (R68, R94). -/
theorem Session.AfterRun.stopped_of_runFrom {h : Session} {v : State} (hh : h.AfterRun) (e : runFrom h = .ok v) :
    h = .started v ∧ ¬ Running v := by
  obtain ⟨rfl, -⟩ | rfl | hstopped := runFrom_ok e
  · exact absurd rfl hh.ne_afterReset
  · simp [Session.AfterRun] at hh
  · exact hstopped

/-- Settles O46: only Reset leads back to a machine directly after Reset, from a Load or from a Run. -/
theorem loadIsPerformedOnceAfterReset : Obligations.LoadIsPerformedOnceAfterReset := by
  refine ⟨fun t image next h loaded ms hload hms => ?_, fun t next h s ms hrun hms => ?_, fun t image h ms hl => ?_⟩
  · obtain ⟨-, -, rfl⟩ := load_ok hload
    exact load_refused next
      (moves_induct_kept (P := (· ≠ .afterReset)) (fun _ _ => move_ne_afterReset t) hms (by simp))
  · have hstarted : (h.move t .run).AfterRun := .inr ⟨s, move_run_of_ok t hrun⟩
    have hafter : (Session.moves t ms (h.move t .run)).AfterRun :=
      moves_induct_kept (fun _ _ => move_keeps_afterRun t) hms hstarted
    exact ⟨load_refused next hafter.ne_afterReset, fun _ => hafter.stopped_of_runFrom⟩
  · exact ⟨⟨_, load_afterReset hl, rfl⟩, rfl⟩

/-! ### Every run starts from Reset -/

/-- The core's state, where the machine has one, is one of the boot sequence (R121): the state Run starts from on some image,
or a state reached from there. -/
def Session.FromBoot (t : OpcodeTable) : Session → Prop
  | .needsReset => True
  | .afterReset => True
  | .loaded s => ∃ image, launch image = .ok s
  | .started u => ∃ image, ReachedFromBoot t image u

/-- Every move keeps it: Load and Run are the boot sequence's own, and Run without Load is that on the empty image. -/
theorem move_keeps_fromBoot (t : OpcodeTable) (m : Move) {h : Session} (hh : h.FromBoot t) :
    (h.move t m).FromBoot t := by
  obtain ⟨-, e⟩ | ⟨image, -, hl, -, e⟩ | ⟨-, -, e⟩ | ⟨s, -, rfl, e⟩ | ⟨s, u, -, rfl, hstep, e⟩ | ⟨_, -, -, -, e⟩ |
    ⟨-, e⟩ | ⟨-, e⟩ := move_cases t m h <;> rw [e]
  · trivial
  · exact ⟨image, launch_of_le hl⟩
  · exact ⟨[], State.reset, launch_of_le (Nat.zero_le 256), .here _⟩
  · obtain ⟨image, hlaunch⟩ := hh
    exact ⟨image, s, hlaunch, .here s⟩
  · obtain ⟨image, s₀, hlaunch, hreach⟩ := hh
    exact ⟨image, s₀, hlaunch, .step s₀ s u hreach hstep⟩
  · exact hh
  · exact hh
  · trivial

theorem moves_keep_fromBoot (t : OpcodeTable) (ms : List Move) {h : Session} (hh : h.FromBoot t) :
    (Session.moves t ms h).FromBoot t := by
  induction ms generalizing h with
  | nil => exact hh
  | cons m ms ih => exact ih (move_keeps_fromBoot t m hh)

/-- Settles O47, by induction on the moves: a new machine has no state, and an image that launches has at most 256 bytes. -/
theorem everyRunStartsFromReset : Obligations.EveryRunStartsFromReset := by
  intro t ms u hu
  have hboot : (Session.moves t ms .needsReset).FromBoot t := moves_keep_fromBoot t ms trivial
  rw [hu] at hboot
  obtain ⟨image, s, hlaunch, hreach⟩ := hboot
  exact ⟨image, (launch_ok hlaunch).1, s, hlaunch, hreach⟩

end Sys2Proof.Machine

/-! ## Exceptions: the proofs of the statements of 60_exceptions.md (O31, O30) -/

namespace Sys2Proof.Machine

/-! ### What a fault's record says -/

/-- The record says what stands at `pc` (R100 to R103): an opcode byte that no row has, or some row's opcode byte with the
first of its register operand bytes that is above 7. -/
def RecordsWhatStandsAtPc (t : OpcodeTable) (s : State) (record : FaultRecord) : Prop :=
  (record = .unsupportedOpcode (s.readMem s.pc) s.pc ∧ ∀ m, t m ≠ s.readMem s.pc) ∨
    ∃ (m : Mnemonic) (b : Byte), t m = s.readMem s.pc ∧
      record = .invalidRegisterIndex (s.readMem s.pc) b s.pc ∧
      (registerOperandBytes m (s.readMem (s.pc + 1)) (s.readMem (s.pc + 2))).find?
        (fun x => decide (7 < x.toNat)) = some b

/-- What the decoder finds at `pc` makes such a record, for both kinds of fault. -/
theorem recordsWhatStandsAtPc_of_decodeAtPc {t : OpcodeTable} {s : State} {e : Illegal}
    (h : decodeAtPc t s = .error e) : RecordsWhatStandsAtPc t s (illegalRecord e s.pc) := by
  cases e with
  | unsupportedOpcode opcode =>
    obtain ⟨hl, rfl⟩ := decodeBytes_eq_unsupported.mp h
    exact .inl ⟨rfl, lookup_eq_none.mp hl⟩
  | invalidRegisterIndex opcode operand =>
    obtain ⟨rfl, m, hl, ho⟩ := decodeBytes_eq_invalid.mp h
    exact .inr ⟨m, operand, byte_of_lookup hl, rfl, decodeOperands_eq_error_iff.mp ho⟩

/-- A step that ends faulted took the fault the decoder found at `pc`: no instruction sets the latch, and a core whose latch
is set takes no step (R68, R104). -/
theorem stepWith_next_faulted {t : OpcodeTable} {s u : State} {record : FaultRecord} (h : stepWith t s = .next u)
    (hf : u.fault = some record) :
    ∃ e, decodeAtPc t s = .error e ∧ record = illegalRecord e s.pc ∧ u = s.takeFault record := by
  obtain ⟨⟨-, hclear⟩, ⟨e, hd, rfl⟩ | ⟨i, -, he⟩⟩ := stepWith_next h
  · obtain rfl : illegalRecord e s.pc = record := by simpa using hf
    exact ⟨e, hd, rfl, rfl⟩
  · simp [exec_fault he, hclear] at hf

/-- Settles O31: the step took the decoder's fault, which changes the latch alone. -/
theorem faultingStepChangesTheLatchAlone : Obligations.FaultingStepChangesTheLatchAlone := by
  intro t s u record hstep hf
  obtain ⟨e, hd, rfl, hu⟩ := stepWith_next_faulted hstep hf
  exact ⟨hu, recordsWhatStandsAtPc_of_decodeAtPc hd⟩

/-! ### A byte that is no opcode -/

/-- 0x00 is no opcode of the default table (D1). -/
theorem OPC_ne_zero (m : Mnemonic) : OPC m ≠ 0x00#8 := by
  cases m <;> decide

/-- Settles O30: the core runs after Reset, and the byte at its `pc` is 0x00, which is no opcode of the default table. -/
theorem unsupportedOpcodeIsReported : Obligations.UnsupportedOpcodeIsReported :=
  ⟨fun _ _ => stepWith_of_unsupported, stepWith_of_unsupported ⟨rfl, rfl⟩ OPC_ne_zero⟩

end Sys2Proof.Machine
